-- ==== Sys2Proof/Word.lean ====
section
/-! DEFINITION. The word types of the Ring-GSW engine. -/

namespace Sys2Proof

/-- A 32-bit register, command or PM word (10_state.md rules R22 to R40). -/
abbrev Word := BitVec 32

/-- A descriptor index 0..15: a 4-bit operand field of a command (30_encoding.md rules R91, R92). -/
abbrev Idx := BitVec 4

/-- An opcode byte, bits [31:24] of a command word (30_encoding.md rule R91). -/
abbrev Opcode := BitVec 8

end Sys2Proof
end

