-- ==== Sys2Proof/Config.lean ====
section
/-! DEFINITION. What an implementation of the engine fixes (its parameters), and the free value. -/

namespace Sys2Proof.Config

/-- The implementation parameters of 00_scope.md rule R7 (93_implementation_defined.md I3). NMAX and NMD are
derived and fixed (below); LATENCY has no value in a model without time. -/
structure Params where
  /-- LOGQ_MAX, the largest legal CFG.LOGQ. -/
  logqMax   : Nat
  /-- LOGN_MAX, the largest legal CFG.LOGN. -/
  lognMax   : Nat
  /-- SLOTS, the number of ring-element slots of PM. -/
  slots     : Nat
  /-- DEC_REDUCE, whether the decoder reduces its band operand modulo q (42_gsw.md rule R167). -/
  decReduce : Bool
  /-- HOST_BASE, where the platform maps the host window (20_memory.md rule R60). -/
  hostBase  : Nat
deriving DecidableEq, Repr

/-- The legal ranges of rule R7. -/
abbrev Params.Legal (p : Params) : Prop :=
  1 ≤ p.logqMax ∧ p.logqMax ≤ 32 ∧ 1 ≤ p.lognMax ∧ p.lognMax ≤ 15 ∧ 1 ≤ p.slots ∧ p.slots ≤ 65536

/-- NMAX = 2^LOGN_MAX, coefficient words per PM slot (rule R7). -/
def Params.nmax (p : Params) : Nat := 2 ^ p.lognMax

/-- NMD, the number of descriptor registers (rule R7: fixed 16). -/
def nmd : Nat := 16

/-- The reference configuration of rule R7. HOST_BASE is not fixed there: 0 is a DESIGN CHOICE (unsafe, log 2); every
claim is about all values of it. -/
def reference : Params :=
  { logqMax := 32, lognMax := 10, slots := 16384, decReduce := false, hostBase := 0 }

/-- The free words a soft reset leaves in the destination region of the command it abandons
(70_reset_and_hazards.md rule R233, 93_implementation_defined.md I2): draw number i is `freeWord i`. It has no body, so
nothing in Lean fixes a value of it (log 5, safe). -/
opaque freeWord : Nat → Word

end Sys2Proof.Config
end

