-- ==== Sys2Proof/Syntax.lean ====
section
/-! DEFINITION. The command set RGSW-CMD version 1, whole: one constructor per row of spec/opcode_table.json
(30_encoding.md rule R93). Operands stand in the assembler's order MD, MS1, MS2, MS3 (rule R98). -/

namespace Sys2Proof

/-- A command (30_encoding.md rule R93). An operand is a descriptor index; a field a command does not use has no
argument here, because it must be 0 (rule R94). -/
inductive Instr where
  /-- 43_control.md rule R190 -/
  | nop
  /-- 40_ring.md rule R114 -/
  | madd (md ms1 ms2 : Idx)
  /-- 40_ring.md rule R115 -/
  | msub (md ms1 ms2 : Idx)
  /-- 40_ring.md rule R116 -/
  | mneg (md ms1 : Idx)
  /-- 40_ring.md rule R117 -/
  | mmul (md ms1 ms2 : Idx)
  /-- 40_ring.md rule R118 -/
  | mscale (md ms1 ms2 : Idx)
  /-- 40_ring.md rule R119 -/
  | mident (md ms1 : Idx)
  /-- 40_ring.md rule R120 -/
  | mcopy (md ms1 : Idx)
  /-- 40_ring.md rule R121 -/
  | mtrans (md ms1 : Idx)
  /-- 41_gadget.md rule R144 -/
  | pow2 (md ms1 : Idx)
  /-- 41_gadget.md rule R145 -/
  | bdec (md ms1 : Idx)
  /-- 41_gadget.md rule R146 -/
  | bdinv (md ms1 : Idx)
  /-- 41_gadget.md rule R147 -/
  | flat (md ms1 : Idx)
  /-- 42_gsw.md rule R163 -/
  | skgen (md ms1 : Idx)
  /-- 42_gsw.md rule R164 -/
  | pkgen (md ms1 : Idx)
  /-- 42_gsw.md rule R165 -/
  | enc (md ms1 ms2 ms3 : Idx)
  /-- 42_gsw.md rule R168 -/
  | dec (md ms1 ms2 : Idx)
  /-- 42_gsw.md rule R169 -/
  | hmc (md ms1 ms2 : Idx)
  /-- 42_gsw.md rule R170 -/
  | hadd (md ms1 ms2 : Idx)
  /-- 42_gsw.md rule R172 -/
  | chksk (ms1 ms2 : Idx)
deriving DecidableEq, Repr

/-- The fields of a command word (30_encoding.md rule R91), each as it stands in the word, checked by nothing. -/
structure RawCommand where
  opc : Opcode
  md  : Idx
  ms1 : Idx
  ms2 : Idx
  ms3 : Idx
  rsv : BitVec 8
deriving DecidableEq, Repr

end Sys2Proof
end

