-- ==== Sys2Proof/Machine/State.lean ====
section
/-! DEFINITION. The state of the engine (10_state.md rule R20) with the host's remaining schedule beside it, the reasons a
step can stop, and the state after power-on reset (rule R43). -/

namespace Sys2Proof.Machine

open Sys2Proof

/-- Why the machine stops with a fault. -/
inductive Fault where
  /-- A PM word that nothing has written since power-on was read, by a PMDATA read (20_memory.md rule R65) or by a
  command's fetch (rule R63): 10_state.md rule R41 asks a model to fault there. Safe: the hardware goes on with a value
  no rule fixes. -/
  | unwrittenWord
deriving DecidableEq, Repr

/-- Why a step is refused. -/
inductive Refusal where
  /-- The dispatcher raises it for an instruction that has no meaning yet (safe). No arm does. -/
  | notModelled (mnemonic : String)
  /-- A bus access whose address lies outside the 256-byte host window: it does not reach the engine (20_memory.md rules
  R60, R69) and belongs to a device this spec does not describe. The window raises it (safe, log 10). -/
  | outsideWindow
deriving DecidableEq, Repr

/-- The error causes of 60_exceptions.md rule R202; NONE is the cause code 0 of a CAUSE register with no error. -/
inductive Cause where
  | illegalOpcode
  | reservedField
  | notConfigured
  | badDescriptor
  | shapeMismatch
  | badConfig
deriving DecidableEq, Repr

/-- The operand fields of a command, as CAUSE.OPND names them (10_state.md rule R29). -/
inductive OperandField where
  | ms1
  | ms2
  | ms3
  | md
deriving DecidableEq, Repr

/-- One host bus access (00_scope.md rule R13's MemRead and MemWrite): an absolute bus address, a width in bytes, and the
value written. Only 32-bit accesses at multiples of 4 are defined; the others are access errors (20_memory.md rule R61). -/
inductive Access where
  | read  (addr width : Nat)
  | write (addr width : Nat) (value : Word)
deriving DecidableEq, Repr

/-- One step of an agent (00_scope.md rule R14): a host access, a turn of the engine, or a pulse of the platform's
power-on reset input (70_reset_and_hazards.md rule R230). -/
inductive Event where
  | host (a : Access)
  | engine
  | powerOn
deriving DecidableEq, Repr

/-- PM as the words that hold a value: (word address, word) pairs, addresses strictly rising. The address of word t of
slot s is s·NMAX + t; an address not listed is a word nothing has written (10_state.md rules R40, R41; log 3, log 4). -/
structure Memory where
  cells : List (Nat × Word)
deriving DecidableEq, Repr

/-- The machine: the architectural state of 10_state.md rule R20, the implementation's parameters, and three fields of the
model's own. ID, VER, BUSY, CFGOK and IRQ are computed from it (rules R22, R25, R37, R38; log 14). -/
structure State where
  /-- The implementation's parameters (00_scope.md rule R7); no step changes them (log 1). -/
  params   : Config.Params
  /-- CFG (rule R24). -/
  cfg      : Word
  /-- STATUS.DONE (rule R27). -/
  done     : Bool
  /-- STATUS.ERR (rule R27). -/
  err      : Bool
  /-- STATUS.HAZ (rule R27). -/
  haz      : Bool
  /-- STATUS.AERR (rule R27). -/
  aerr     : Bool
  /-- STATUS.CHK (rule R27). -/
  chk      : Bool
  /-- CAUSE (rule R29). -/
  cause    : Word
  /-- LASTCMD (rule R30). -/
  lastCmd  : Word
  /-- CTRL.IE (rule R33). -/
  ie       : Bool
  /-- PMADDR (rule R34). -/
  pmaddr   : Word
  /-- MD0..MD15 (rule R31). -/
  md       : Vector Word 16
  /-- PM (rule R40). -/
  pm       : Memory
  /-- PEND (rule R38). -/
  pend     : Option Word
  /-- The model's own: the events still to come, in order (20_memory.md rule R71; log 7). -/
  schedule : List Event
  /-- The model's own: the values the host has read, newest first (70_reset_and_hazards.md rule R247; log 9). -/
  reads    : List Word
  /-- The model's own: how many free words have been drawn (rule R233; log 5). -/
  draws    : Nat
deriving DecidableEq, Repr

/-- The state after power-on reset (10_state.md rule R43, 70_reset_and_hazards.md rule R231), in the reference
configuration (00_scope.md rule R7), with no event scheduled (log 12). -/
def State.reset : State :=
  { params := Config.reference, cfg := 0, done := false, err := false, haz := false, aerr := false, chk := false,
    cause := 0, lastCmd := 0, ie := false, pmaddr := 0, md := Vector.replicate 16 0, pm := ⟨[]⟩, pend := none,
    schedule := [], reads := [], draws := 0 }

end Sys2Proof.Machine
end

