-- ==== Sys2Proof/Machine/Matrix.lean ====
section
/-! DEFINITION. Ring elements and matrices of them (00_scope.md rules R6, R10, R11, R12): the values the commands compute
with between a fetch and a store. -/

namespace Sys2Proof.Machine

open Sys2Proof

/-- The ring context (00_scope.md rule R6): k = LOGQ bits per coefficient and degree n = 2^LOGN. -/
structure RingCtx where
  k : Nat
  n : Nat
deriving DecidableEq, Repr

/-- The modulus q = 2^k (rule R6). -/
def RingCtx.q (R : RingCtx) : Nat := 2 ^ R.k

/-- The gadget width N = 2k (rule R6). -/
def RingCtx.width (R : RingCtx) : Nat := 2 * R.k

/-- A ring element: its coefficients, that of x^t at position t (rule R11). -/
abbrev Elem := List Nat

/-- Coefficient t of an element. -/
def coeff (p : Elem) (t : Nat) : Nat := p.getD t 0

/-- The element of degree bound n with the given coefficients. -/
def elemOf (n : Nat) (f : Nat → Nat) : Elem := (List.range n).map f

/-- A matrix of ring elements (rule R12). -/
structure Mat where
  rows  : Nat
  cols  : Nat
  elems : List (List Elem)
deriving DecidableEq, Repr

/-- M[i][j] (rule R12). -/
def Mat.get (M : Mat) (i j : Nat) : Elem := (M.elems.getD i []).getD j []

/-- M[i][j]_t (rule R12). -/
def Mat.coef (M : Mat) (i j t : Nat) : Nat := coeff (M.get i j) t

/-- The r×c matrix with the given elements. -/
def matOf (r c : Nat) (f : Nat → Nat → Elem) : Mat :=
  { rows := r, cols := c, elems := (List.range r).map fun i => (List.range c).map fun j => f i j }

/-- The r×c matrix over elements of n coefficients with the given coefficients. -/
def matOfCoefs (r c n : Nat) (f : Nat → Nat → Nat → Nat) : Mat := matOf r c fun i j => elemOf n fun t => f i j t

/-- Σ f(i) over i = 0 .. m-1, in the integers (rule R13). -/
def sumTo : Nat → (Nat → Int) → Int
  | 0, _ => 0
  | m + 1, f => sumTo m f + f m

/-- The modular reducer (rule R10, 40_ring.md rule R110): the non-negative residue of an integer of any sign. -/
def modq (R : RingCtx) (v : Int) : Nat := (v % (R.q : Int)).toNat

/-- `bit(v, l)` (rule R9). -/
def bitOf (v l : Nat) : Nat := v / 2 ^ l % 2

/-- A scalar as a ring element: the constant polynomial (rule R11). -/
def constElem (R : RingCtx) (c : Int) : Elem := elemOf R.n fun t => if t = 0 then modq R c else 0

/-- The zero element. -/
def zeroElem (R : RingCtx) : Elem := elemOf R.n fun _ => 0

/-- The transpose of a matrix (40_ring.md rule R121). -/
def transpose (M : Mat) : Mat := matOf M.cols M.rows fun j i => M.get i j

end Sys2Proof.Machine
end

