-- ==== Sys2Proof/WellFormed.lean ====
section
/-! DEFINITION. When a command is well-formed (30_encoding.md rule R94): its opcode is in the table of rule R93, its RSV
field is 0 and every operand field its opcode does not use is 0. A term of `Instr` is well-formed by its type (its
operands are 4-bit indices and it has no other field); the check is on the fields of a word. -/

namespace Sys2Proof

/-- Which operand fields an opcode uses: a row of the table of rule R93. -/
structure FieldUse where
  md  : Bool
  ms1 : Bool
  ms2 : Bool
  ms3 : Bool
deriving DecidableEq, Repr

/-- The columns MD, MS1, MS2, MS3 of the table of rule R93, opcode by opcode. -/
def fieldUses : List (Opcode × FieldUse) :=
  [ (0x00, ⟨false, false, false, false⟩),
    (0x01, ⟨true,  true,  true,  false⟩),
    (0x02, ⟨true,  true,  true,  false⟩),
    (0x03, ⟨true,  true,  false, false⟩),
    (0x04, ⟨true,  true,  true,  false⟩),
    (0x05, ⟨true,  true,  true,  false⟩),
    (0x06, ⟨true,  true,  false, false⟩),
    (0x07, ⟨true,  true,  false, false⟩),
    (0x08, ⟨true,  true,  false, false⟩),
    (0x10, ⟨true,  true,  false, false⟩),
    (0x11, ⟨true,  true,  false, false⟩),
    (0x12, ⟨true,  true,  false, false⟩),
    (0x13, ⟨true,  true,  false, false⟩),
    (0x20, ⟨true,  true,  false, false⟩),
    (0x21, ⟨true,  true,  false, false⟩),
    (0x22, ⟨true,  true,  true,  true⟩),
    (0x23, ⟨true,  true,  true,  false⟩),
    (0x24, ⟨true,  true,  true,  false⟩),
    (0x25, ⟨true,  true,  true,  false⟩),
    (0x26, ⟨false, true,  true,  false⟩) ]

/-- The table's row for an opcode; none for an opcode the table does not have (rule R96). -/
def fieldUse (opc : Opcode) : Option FieldUse := fieldUses.lookup opc

/-- Rule R94, first part: the opcode is in the table. -/
def RawCommand.opcodeDefined (c : RawCommand) : Bool := (fieldUse c.opc).isSome

/-- Rule R94, second part: RSV is 0. -/
def RawCommand.reservedZero (c : RawCommand) : Bool := c.rsv == 0

/-- Rule R94, third part: every operand field the opcode does not use is 0. -/
def RawCommand.unusedZero (c : RawCommand) : Bool :=
  match fieldUse c.opc with
  | none   => false
  | some u => (u.md || c.md == 0) && (u.ms1 || c.ms1 == 0) && (u.ms2 || c.ms2 == 0) && (u.ms3 || c.ms3 == 0)

/-- A well-formed command (rule R94). -/
def RawCommand.wellFormed (c : RawCommand) : Bool := c.opcodeDefined && c.reservedZero && c.unusedZero

end Sys2Proof
end

