-- ==== Sys2Proof/Decode.lean ====
section
/-! DEFINITION. The decoder of command words, total, rejecting by name, and the encoder (30_encoding.md rules R91, R93,
R94, R96). A command is one 32-bit data word (rule R90), not bytes (20_memory.md rules R62, R74). -/

namespace Sys2Proof

/-- OPC, bits [31:24] (rule R91). -/
def opcOf (w : Word) : Opcode := w.extractLsb' 24 8
/-- MD, bits [23:20] (rule R91). -/
def mdOf (w : Word) : Idx := w.extractLsb' 20 4
/-- MS1, bits [19:16] (rule R91). -/
def ms1Of (w : Word) : Idx := w.extractLsb' 16 4
/-- MS2, bits [15:12] (rule R91). -/
def ms2Of (w : Word) : Idx := w.extractLsb' 12 4
/-- MS3, bits [11:8] (rule R91). -/
def ms3Of (w : Word) : Idx := w.extractLsb' 8 4
/-- RSV, bits [7:0] (rule R91). -/
def rsvOf (w : Word) : BitVec 8 := w.extractLsb' 0 8

/-- The fields of a word (rule R91). -/
def rawOf (w : Word) : RawCommand :=
  { opc := opcOf w, md := mdOf w, ms1 := ms1Of w, ms2 := ms2Of w, ms3 := ms3Of w, rsv := rsvOf w }

/-- Why a word spells no command (rule R96): its opcode is not in the table, or its opcode is and a field that must be 0
is not. The engine raises ILLEGAL_OPCODE or RESERVED_FIELD (60_exceptions.md rule R202): safe, the spec's own. -/
inductive DecodeError where
  | illegalOpcode
  | reservedField
deriving DecidableEq, Repr

/-- A command whose must-be-zero fields hold, or the refusal of it (rules R94, R96). -/
def decodeIf (zeros : Bool) (i : Instr) : Except DecodeError Instr :=
  if zeros then .ok i else .error .reservedField

/-- A command that uses MD and MS1: MS2, MS3 and RSV must be 0. -/
def decodeUnary (w : Word) (f : Idx → Idx → Instr) : Except DecodeError Instr :=
  decodeIf (ms2Of w == 0 && ms3Of w == 0 && rsvOf w == 0) (f (mdOf w) (ms1Of w))

/-- A command that uses MD, MS1 and MS2: MS3 and RSV must be 0. -/
def decodeBinary (w : Word) (f : Idx → Idx → Idx → Instr) : Except DecodeError Instr :=
  decodeIf (ms3Of w == 0 && rsvOf w == 0) (f (mdOf w) (ms1Of w) (ms2Of w))

/-- The command a word spells (rule R93), or why it spells none, in the order of 60_exceptions.md rule R205 steps 1
and 2. -/
def decode (w : Word) : Except DecodeError Instr :=
  match (opcOf w).toNat with
  | 0x00 => decodeIf (mdOf w == 0 && ms1Of w == 0 && ms2Of w == 0 && ms3Of w == 0 && rsvOf w == 0) .nop
  | 0x01 => decodeBinary w .madd
  | 0x02 => decodeBinary w .msub
  | 0x03 => decodeUnary w .mneg
  | 0x04 => decodeBinary w .mmul
  | 0x05 => decodeBinary w .mscale
  | 0x06 => decodeUnary w .mident
  | 0x07 => decodeUnary w .mcopy
  | 0x08 => decodeUnary w .mtrans
  | 0x10 => decodeUnary w .pow2
  | 0x11 => decodeUnary w .bdec
  | 0x12 => decodeUnary w .bdinv
  | 0x13 => decodeUnary w .flat
  | 0x20 => decodeUnary w .skgen
  | 0x21 => decodeUnary w .pkgen
  | 0x22 => decodeIf (rsvOf w == 0) (.enc (mdOf w) (ms1Of w) (ms2Of w) (ms3Of w))
  | 0x23 => decodeBinary w .dec
  | 0x24 => decodeBinary w .hmc
  | 0x25 => decodeBinary w .hadd
  | 0x26 => decodeIf (mdOf w == 0 && ms3Of w == 0 && rsvOf w == 0) (.chksk (ms1Of w) (ms2Of w))
  | _    => .error .illegalOpcode

/-- The opcode byte of a command (rule R93). -/
def Instr.opcode (i : Instr) : Opcode :=
  match i with
  | .nop           => 0x00
  | .madd _ _ _    => 0x01
  | .msub _ _ _    => 0x02
  | .mneg _ _      => 0x03
  | .mmul _ _ _    => 0x04
  | .mscale _ _ _  => 0x05
  | .mident _ _    => 0x06
  | .mcopy _ _     => 0x07
  | .mtrans _ _    => 0x08
  | .pow2 _ _      => 0x10
  | .bdec _ _      => 0x11
  | .bdinv _ _     => 0x12
  | .flat _ _      => 0x13
  | .skgen _ _     => 0x20
  | .pkgen _ _     => 0x21
  | .enc _ _ _ _   => 0x22
  | .dec _ _ _     => 0x23
  | .hmc _ _ _     => 0x24
  | .hadd _ _ _    => 0x25
  | .chksk _ _     => 0x26

/-- The word with the given fields: `OPC<<24 | MD<<20 | MS1<<16 | MS2<<12 | MS3<<8 | RSV` (rule R91). -/
def packWord (c : RawCommand) : Word := c.opc ++ c.md ++ c.ms1 ++ c.ms2 ++ c.ms3 ++ c.rsv

/-- The fields of a command: the ones it uses, 0 in the others (rules R94, R98). -/
def Instr.fields (i : Instr) : RawCommand :=
  match i with
  | .nop                                                        => ⟨i.opcode, 0, 0, 0, 0, 0⟩
  | .madd d a b | .msub d a b | .mmul d a b | .mscale d a b     => ⟨i.opcode, d, a, b, 0, 0⟩
  | .dec d a b | .hmc d a b | .hadd d a b                       => ⟨i.opcode, d, a, b, 0, 0⟩
  | .mneg d a | .mident d a | .mcopy d a | .mtrans d a          => ⟨i.opcode, d, a, 0, 0, 0⟩
  | .pow2 d a | .bdec d a | .bdinv d a | .flat d a              => ⟨i.opcode, d, a, 0, 0, 0⟩
  | .skgen d a | .pkgen d a                                     => ⟨i.opcode, d, a, 0, 0, 0⟩
  | .enc d a b c                                                => ⟨i.opcode, d, a, b, c, 0⟩
  | .chksk a b                                                  => ⟨i.opcode, 0, a, b, 0, 0⟩

/-- The word of a command (rule R91). -/
def encode (i : Instr) : Word := packWord i.fields

/-- Whether a command with this opcode byte is defined and has a destination (rule R93, column MD), whatever its other
fields hold: what the soft reset asks of the command it abandons (70_reset_and_hazards.md rule R233). -/
def opcodeHasDest (opc : Opcode) : Bool :=
  match fieldUse opc with
  | none   => false
  | some u => u.md

/-- The instruction the decoder reads from a row of the opcode table whose bits are w (the host's question): one 32-bit
word, the bits above `nbits` being 0. -/
def decodeTableWord (nbits w : Nat) : Option Instr :=
  match decode (BitVec.ofNat 32 (w % 2 ^ nbits)) with
  | .ok i    => some i
  | .error _ => none

end Sys2Proof
end

