-- ==== Sys2Proof/Machine/Flags.lean ====
section
/-! DEFINITION. The ring context held in CFG, the flags of STATUS, and the views of the state that are computed from it
(10_state.md rules R22 to R29, R37, R42). -/

namespace Sys2Proof.Machine

open Sys2Proof

/-- CFG.LOGQ, bits [5:0] (10_state.md rule R24). -/
def cfgLogq (cfg : Word) : Nat := (cfg.extractLsb' 0 6).toNat

/-- CFG.LOGN, bits [11:8] (rule R24). -/
def cfgLogn (cfg : Word) : Nat := (cfg.extractLsb' 8 4).toNat

/-- The bits of CFG that a write stores, 0x00000F3F (rule R26). -/
def cfgMask : Word := 0x00000F3F

/-- CFGOK for a value of CFG under the implementation's limits (rule R25). -/
def cfgValid (p : Config.Params) (cfg : Word) : Bool :=
  decide (1 ≤ cfgLogq cfg) && decide (cfgLogq cfg ≤ p.logqMax) && decide (1 ≤ cfgLogn cfg) &&
    decide (cfgLogn cfg ≤ p.lognMax)

/-- STATUS.CFGOK (rules R25, R27). -/
def State.cfgOk (s : State) : Bool := cfgValid s.params s.cfg

/-- STATUS.BUSY: a command is pending (rules R27, R38). -/
def State.busy (s : State) : Bool := s.pend.isSome

/-- The interrupt output, IRQ = CTRL.IE and (STATUS.DONE or STATUS.ERR) (rule R37, 60_exceptions.md rule R210). -/
def State.irq (s : State) : Bool := s.ie && (s.done || s.err)

/-- A flag as a word with that flag in bit i. -/
def flagBit (b : Bool) (i : Nat) : Word := if b then 1#32 <<< i else 0

/-- STATUS as the host reads it (rule R27): BUSY 0, DONE 1, ERR 2, HAZ 3, AERR 4, CHK 5, CFGOK 6, the rest 0. -/
def State.statusWord (s : State) : Word :=
  flagBit s.busy 0 ||| flagBit s.done 1 ||| flagBit s.err 2 ||| flagBit s.haz 3 ||| flagBit s.aerr 4 |||
    flagBit s.chk 5 ||| flagBit s.cfgOk 6

/-- CTRL as the host reads it (rule R33): SRST reads 0, IE is bit 1, the rest reads 0. -/
def State.ctrlWord (s : State) : Word := flagBit s.ie 1

/-- ID, the bytes "RGSW" (rule R22). -/
def idWord : Word := 0x52475357

/-- VER, the version of RGSW-CMD (rule R22). -/
def verWord : Word := 0x00000001

/-- PARAM (rule R23): LOGQ_MAX [5:0], LOGN_MAX [11:8], NMD [20:16], the rest 0. -/
def paramWord (p : Config.Params) : Word :=
  0#11 ++ BitVec.ofNat 5 Config.nmd ++ 0#4 ++ BitVec.ofNat 4 p.lognMax ++ 0#2 ++ BitVec.ofNat 6 p.logqMax

/-- PSLOTS (rule R23): SLOTS [16:0], the rest 0. -/
def pslotsWord (p : Config.Params) : Word := 0#15 ++ BitVec.ofNat 17 p.slots

/-- STATUS.HAZ <- 1: a host access was dropped because a command is pending (20_memory.md rule R68). -/
def State.setHaz (s : State) : State := { s with haz := true }

/-- STATUS.AERR <- 1: a bad host access (20_memory.md rules R61, R67). -/
def State.setAerr (s : State) : State := { s with aerr := true }

end Sys2Proof.Machine
end

