-- ==== Sys2Proof/Machine/Ops.lean ====
section
/-! DEFINITION. The named operations over PM and the registers: reading and writing a PM word, recording an error, raising
one from a command (the engine's exception entry, 60_exceptions.md rules R201, R212) and returning from it (rule R208),
accepting a command and completing one. -/

namespace Sys2Proof.Machine

open Sys2Proof

/-! ## PM (10_state.md rules R40, R41) -/

/-- The address of word t of slot s (log 3). -/
def wordAddr (p : Config.Params) (s t : Nat) : Nat := s * p.nmax + t

/-- The word at an address of a sorted list of cells; none where nothing is listed. -/
def readCells : List (Nat × Word) → Nat → Option Word
  | [], _ => none
  | (b, v) :: rest, a => if a = b then some v else if a < b then none else readCells rest a

/-- The list of cells with the word at an address set, in rising order. -/
def writeCells : List (Nat × Word) → Nat → Word → List (Nat × Word)
  | [], a, v => [(a, v)]
  | (b, u) :: rest, a, v =>
    if a < b then (a, v) :: (b, u) :: rest
    else if a = b then (a, v) :: rest
    else (b, u) :: writeCells rest a v

/-- The word at an address; none for a word nothing has written (rule R41). -/
def Memory.read (m : Memory) (a : Nat) : Option Word := readCells m.cells a

/-- PM with one word written. -/
def Memory.write (m : Memory) (a : Nat) (v : Word) : Memory := ⟨writeCells m.cells a v⟩

/-- PM with each (address, word) of a list written, in the list's order. -/
def Memory.writeAll (m : Memory) (ws : List (Nat × Word)) : Memory := ws.foldl (fun m w => m.write w.1 w.2) m

/-- Whether the addresses of a list of cells rise strictly. -/
def risingFrom : Option Nat → List (Nat × Word) → Bool
  | _, [] => true
  | none, (a, _) :: rest => risingFrom (some a) rest
  | some b, (a, _) :: rest => decide (b < a) && risingFrom (some a) rest

/-- The canonical form of PM: addresses strictly rising, so that equal memories are equal data. An unlisted word reads as
no value, so no entry can equal it. -/
def Memory.wf (m : Memory) : Bool := risingFrom none m.cells

/-- PM[slot][coefficient] (rule R40). -/
def State.pmWord (s : State) (slot t : Nat) : Option Word := s.pm.read (wordAddr s.params slot t)

/-! ## Errors: entry and return (60_exceptions.md) -/

/-- The cause codes of rule R202. -/
def Cause.code : Cause → BitVec 8
  | .illegalOpcode => 0x01
  | .reservedField => 0x02
  | .notConfigured => 0x03
  | .badDescriptor => 0x04
  | .shapeMismatch => 0x05
  | .badConfig     => 0x06

/-- CAUSE.OPND for an operand field that failed (10_state.md rule R29). -/
def OperandField.opnd : OperandField → BitVec 3
  | .ms1 => 1
  | .ms2 => 2
  | .ms3 => 3
  | .md  => 4

/-- The value of CAUSE for an error (10_state.md rule R29, 60_exceptions.md rule R201). -/
def causeWord (code : BitVec 8) (opc : Opcode) (opnd : BitVec 3) : Word := 0#13 ++ opnd ++ opc ++ code

/-- `record_error` (60_exceptions.md rule R201): STATUS.ERR is set, and CAUSE keeps the first error since ERR was last
cleared. -/
def recordError (c : Cause) (opc : Opcode) (opnd : BitVec 3) (s : State) : State :=
  { s with cause := if s.err then s.cause else causeWord c.code opc opnd, err := true }

/-- Taking an error from a command, `raise` (60_exceptions.md rules R201, R212): the error is recorded, the command leaves
PEND, and nothing else changes. There is no saved state, no mode and no vector. STATUS.DONE is not written: it stays at
the 0 that acceptance gave it (log 13). -/
def raiseError (c : Cause) (opc : Opcode) (opnd : BitVec 3) (s : State) : State :=
  { recordError c opc opnd s with pend := none }

/-- Return from an error (60_exceptions.md rule R208): ERR is cleared and CAUSE becomes 0. -/
def clearError (s : State) : State := { s with err := false, cause := 0 }

/-! ## A command's life (10_state.md rules R30, R38) -/

/-- A command word is accepted (10_state.md rule R30). -/
def acceptCommand (v : Word) (s : State) : State := { s with lastCmd := v, done := false, pend := some v }

/-- A command completes without error: STATUS.DONE <- 1, PEND <- none (20_memory.md rule R70, 60_exceptions.md rule R205
step 6). -/
def complete (s : State) : State := { s with done := true, pend := none }

/-- The error of a word that spells no command (60_exceptions.md rules R202, R205 steps 1 and 2). -/
def decodeCause : DecodeError → Cause
  | .illegalOpcode => .illegalOpcode
  | .reservedField => .reservedField

end Sys2Proof.Machine
end

