-- ==== Sys2Proof/Machine/Operands.lean ====
section
/-! DEFINITION. The one operand form of the engine: a matrix in PM named by a descriptor register (10_state.md rules R31,
R32; 20_memory.md rules R63, R64), and the order in which a command's checks are made (60_exceptions.md rule R205). -/

namespace Sys2Proof.Machine

open Sys2Proof

/-! ## Descriptors -/

/-- MDi (rule R31). -/
def State.desc (s : State) (i : Idx) : Word := s.md[i.toNat]

/-- BASE, bits [15:0] of a descriptor (rule R31). -/
def descBase (d : Word) : Nat := (d.extractLsb' 0 16).toNat

/-- ROWS, bits [23:16] of a descriptor (rule R31). -/
def descRows (d : Word) : Nat := (d.extractLsb' 16 8).toNat

/-- COLS, bits [31:24] of a descriptor (rule R31). -/
def descCols (d : Word) : Nat := (d.extractLsb' 24 8).toNat

/-- Whether a descriptor is valid (rule R32). -/
def descValid (p : Config.Params) (d : Word) : Bool :=
  decide (1 ≤ descRows d) && decide (1 ≤ descCols d) && decide (descBase d + descRows d * descCols d ≤ p.slots)

/-- Whether a descriptor has the given shape. -/
def descIs (d : Word) (r c : Nat) : Bool := descRows d == r && descCols d == c

/-- The slot of element (r, c) of the matrix a descriptor names, row-major (rule R31). -/
def descSlot (d : Word) (r c : Nat) : Nat := descBase d + r * descCols d + c

/-- The ring CFG configures: k = LOGQ, n = 2^LOGN (rule R24). -/
def State.ring (s : State) : RingCtx := { k := cfgLogq s.cfg, n := 2 ^ cfgLogn s.cfg }

/-! ## Fetch and Store -/

/-- Whether every word a fetch of d reads has been written (20_memory.md rule R63). -/
def fetchable (s : State) (d : Word) : Bool :=
  (List.range (descRows d)).all fun r => (List.range (descCols d)).all fun c =>
    (List.range s.ring.n).all fun t => (s.pmWord (descSlot d r c) t).isSome

/-- The matrix d names, each word through the modular reducer (rule R63); an unwritten word counts as 0 here, and `fetch`
answers this matrix only where there is none. -/
def operand (s : State) (d : Word) : Mat :=
  matOfCoefs (descRows d) (descCols d) s.ring.n fun r c t =>
    modq s.ring ((s.pmWord (descSlot d r c) t).getD 0).toNat

/-- `Fetch(d)` (rule R63): a fault of the model if a word it reads is unwritten (10_state.md rule R41). -/
def fetch (s : State) (d : Word) : Except Fault Mat :=
  if fetchable s d then .ok (operand s d) else .error .unwrittenWord

/-- The words `Store(d, M)` writes, with their addresses (rule R64). -/
def storeWords (s : State) (d : Word) (M : Mat) : List (Nat × Word) :=
  (List.range (descRows d)).flatMap fun r => (List.range (descCols d)).flatMap fun c =>
    (List.range s.ring.n).map fun t => (wordAddr s.params (descSlot d r c) t, BitVec.ofNat 32 (M.coef r c t))

/-- `Store(d, M)` (rule R64). -/
def store (d : Word) (M : Mat) (s : State) : State := { s with pm := s.pm.writeAll (storeWords s d M) }

/-! ## The checks of a command -/

/-- The first used operand field whose descriptor is invalid, in the order given (60_exceptions.md rule R205 step 4). -/
def firstInvalid (s : State) : List (OperandField × Idx) → Option OperandField
  | [] => none
  | (f, i) :: rest => if descValid s.params (s.desc i) then firstInvalid s rest else some f

/-- A command other than NOP (60_exceptions.md rule R205 steps 3 to 6): NOT_CONFIGURED, then BAD_DESCRIPTOR over the used
fields in the order MS1, MS2, MS3, MD, then SHAPE_MISMATCH, then the command's own rule, which answers the state after its
stores, and completion. The rule's fetches all read the state before the command (20_memory.md rule R70). -/
def runCommand (opc : Opcode) (used : List (OperandField × Idx)) (shapeOk : Bool)
    (perform : Except Fault State) (s : State) : Host.Outcome State Fault Refusal :=
  if s.cfgOk then
    match firstInvalid s used with
    | some f => .next (raiseError .badDescriptor opc f.opnd s)
    | none =>
      if shapeOk then
        match perform with
        | .ok t    => .next (complete t)
        | .error r => .fault r
      else .next (raiseError .shapeMismatch opc 0 s)
  else .next (raiseError .notConfigured opc 0 s)

end Sys2Proof.Machine
end

