-- ==== Sys2Proof/Machine/Control.lean ====
section
/-! DEFINITION. NOP (43_control.md rule R190), the one control command. -/

namespace Sys2Proof.Machine

open Sys2Proof

/-- NOP (rule R190): it completes, configured or not (60_exceptions.md rule R205 step 3). -/
def execNop (s : State) : Host.Outcome State Fault Refusal := .next (complete s)

end Sys2Proof.Machine
end

