-- ==== Sys2Proof/Machine/Ring.lean ====
section
/-! DEFINITION. Ring arithmetic (40_ring.md): the polynomial multiplier, the ring and matrix operations, and the commands
of opcodes 0x01 to 0x08. -/

namespace Sys2Proof.Machine

open Sys2Proof

/-! ## Ring operations (rules R111, R112) -/

/-- The polynomial multiplier, negacyclic convolution (rule R111). For each i there is one j with i + j = t (i ≤ t) or
i + j = t + n (i > t), so the rule's two sums are one sum over i (log 15). -/
def polyMul (R : RingCtx) (a b : Elem) : Elem :=
  elemOf R.n fun t => modq R <| sumTo R.n fun i =>
    if i ≤ t then (coeff a i : Int) * coeff b (t - i) else -((coeff a i : Int) * coeff b (t + R.n - i))

/-- `add(a, b)` (rule R112). -/
def polyAdd (R : RingCtx) (a b : Elem) : Elem := elemOf R.n fun t => modq R ((coeff a t : Int) + coeff b t)

/-- `sub(a, b)` (rule R112). -/
def polySub (R : RingCtx) (a b : Elem) : Elem := elemOf R.n fun t => modq R ((coeff a t : Int) - coeff b t)

/-- `neg(a)` (rule R112). -/
def polyNeg (R : RingCtx) (a : Elem) : Elem := elemOf R.n fun t => modq R (-(coeff a t : Int))

/-- The ring sum of f(0), .., f(m-1), starting from 0 (rule R113). -/
def elemSum (R : RingCtx) : Nat → (Nat → Elem) → Elem
  | 0, _ => zeroElem R
  | m + 1, f => polyAdd R (elemSum R m f) (f m)

/-! ## Matrix operations (rule R113) -/

/-- Matrix sum `madd`. -/
def madd (R : RingCtx) (A B : Mat) : Mat := matOf A.rows A.cols fun i j => polyAdd R (A.get i j) (B.get i j)

/-- Matrix difference `msub`. -/
def msub (R : RingCtx) (A B : Mat) : Mat := matOf A.rows A.cols fun i j => polySub R (A.get i j) (B.get i j)

/-- Matrix negation `mneg`. -/
def mneg (R : RingCtx) (A : Mat) : Mat := matOf A.rows A.cols fun i j => polyNeg R (A.get i j)

/-- Matrix product `mmul`. -/
def mmul (R : RingCtx) (A B : Mat) : Mat :=
  matOf A.rows B.cols fun i j => elemSum R A.cols fun l => polyMul R (A.get i l) (B.get l j)

/-- `M[i][j] = mul(g, A[i][j])` (rule R118). -/
def mscale (R : RingCtx) (g : Elem) (A : Mat) : Mat := matOf A.rows A.cols fun i j => polyMul R g (A.get i j)

/-- `ident(g)`: the N×N matrix with g on the diagonal and 0 elsewhere. -/
def ident (R : RingCtx) (g : Elem) : Mat := matOf R.width R.width fun i j => if i = j then g else zeroElem R

/-! ## The commands -/

/-- MADD (rule R114). -/
def execMadd (md ms1 ms2 : Idx) (s : State) : Host.Outcome State Fault Refusal :=
  runCommand 0x01 [(.ms1, ms1), (.ms2, ms2), (.md, md)]
    (descIs (s.desc ms2) (descRows (s.desc ms1)) (descCols (s.desc ms1)) &&
      descIs (s.desc md) (descRows (s.desc ms1)) (descCols (s.desc ms1)))
    (do
      let A ← fetch s (s.desc ms1)
      let B ← fetch s (s.desc ms2)
      pure (store (s.desc md) (madd s.ring A B) s))
    s

/-- MSUB (rule R115). -/
def execMsub (md ms1 ms2 : Idx) (s : State) : Host.Outcome State Fault Refusal :=
  runCommand 0x02 [(.ms1, ms1), (.ms2, ms2), (.md, md)]
    (descIs (s.desc ms2) (descRows (s.desc ms1)) (descCols (s.desc ms1)) &&
      descIs (s.desc md) (descRows (s.desc ms1)) (descCols (s.desc ms1)))
    (do
      let A ← fetch s (s.desc ms1)
      let B ← fetch s (s.desc ms2)
      pure (store (s.desc md) (msub s.ring A B) s))
    s

/-- MNEG (rule R116). -/
def execMneg (md ms1 : Idx) (s : State) : Host.Outcome State Fault Refusal :=
  runCommand 0x03 [(.ms1, ms1), (.md, md)]
    (descIs (s.desc md) (descRows (s.desc ms1)) (descCols (s.desc ms1)))
    (do
      let A ← fetch s (s.desc ms1)
      pure (store (s.desc md) (mneg s.ring A) s))
    s

/-- MMUL (rule R117). -/
def execMmul (md ms1 ms2 : Idx) (s : State) : Host.Outcome State Fault Refusal :=
  runCommand 0x04 [(.ms1, ms1), (.ms2, ms2), (.md, md)]
    (descCols (s.desc ms1) == descRows (s.desc ms2) &&
      descIs (s.desc md) (descRows (s.desc ms1)) (descCols (s.desc ms2)))
    (do
      let A ← fetch s (s.desc ms1)
      let B ← fetch s (s.desc ms2)
      pure (store (s.desc md) (mmul s.ring A B) s))
    s

/-- MSCALE (rule R118). -/
def execMscale (md ms1 ms2 : Idx) (s : State) : Host.Outcome State Fault Refusal :=
  runCommand 0x05 [(.ms1, ms1), (.ms2, ms2), (.md, md)]
    (descIs (s.desc ms2) 1 1 && descIs (s.desc md) (descRows (s.desc ms1)) (descCols (s.desc ms1)))
    (do
      let A ← fetch s (s.desc ms1)
      let G ← fetch s (s.desc ms2)
      pure (store (s.desc md) (mscale s.ring (G.get 0 0) A) s))
    s

/-- MIDENT (rule R119). -/
def execMident (md ms1 : Idx) (s : State) : Host.Outcome State Fault Refusal :=
  runCommand 0x06 [(.ms1, ms1), (.md, md)]
    (descIs (s.desc ms1) 1 1 && descIs (s.desc md) s.ring.width s.ring.width)
    (do
      let G ← fetch s (s.desc ms1)
      pure (store (s.desc md) (ident s.ring (G.get 0 0)) s))
    s

/-- MCOPY (rule R120). -/
def execMcopy (md ms1 : Idx) (s : State) : Host.Outcome State Fault Refusal :=
  runCommand 0x07 [(.ms1, ms1), (.md, md)]
    (descIs (s.desc md) (descRows (s.desc ms1)) (descCols (s.desc ms1)))
    (do
      let A ← fetch s (s.desc ms1)
      pure (store (s.desc md) A s))
    s

/-- MTRANS, the transpose/repack unit (rule R121). -/
def execMtrans (md ms1 : Idx) (s : State) : Host.Outcome State Fault Refusal :=
  runCommand 0x08 [(.ms1, ms1), (.md, md)]
    (descIs (s.desc md) (descCols (s.desc ms1)) (descRows (s.desc ms1)))
    (do
      let A ← fetch s (s.desc ms1)
      pure (store (s.desc md) (transpose A) s))
    s

end Sys2Proof.Machine
end

