-- ==== Sys2Proof/Machine/Gadget.lean ====
section
/-! DEFINITION. The gadget unit (41_gadget.md): powersOf2, bitDecomp, bitDecompInv, flatten, and the commands of opcodes
0x10 to 0x13. Column j of a matrix and the k columns j·k .. j·k+k-1 of its gadget form belong together (rule R140). -/

namespace Sys2Proof.Machine

open Sys2Proof

/-- `pow2(M)` (rule R140). -/
def pow2 (R : RingCtx) (M : Mat) : Mat :=
  matOfCoefs M.rows (M.cols * R.k) R.n fun i c t => modq R ((2 ^ (c % R.k) : Nat) * M.coef i (c / R.k) t)

/-- `bdec(M)` (rule R141). -/
def bdec (R : RingCtx) (M : Mat) : Mat :=
  matOfCoefs M.rows (M.cols * R.k) R.n fun i c t => bitOf (M.coef i (c / R.k) t) (c % R.k)

/-- `bdinv(M)` (rule R142). -/
def bdinv (R : RingCtx) (M : Mat) : Mat :=
  matOfCoefs M.rows (M.cols / R.k) R.n fun i j t =>
    modq R <| sumTo R.k fun l => (2 ^ l : Nat) * (M.coef i (j * R.k + l) t : Int)

/-- `flat(M) = bdec(bdinv(M))` (rule R143). -/
def flat (R : RingCtx) (M : Mat) : Mat := bdec R (bdinv R M)

/-- POW2 (rule R144). -/
def execPow2 (md ms1 : Idx) (s : State) : Host.Outcome State Fault Refusal :=
  runCommand 0x10 [(.ms1, ms1), (.md, md)]
    (descIs (s.desc md) (descRows (s.desc ms1)) (descCols (s.desc ms1) * s.ring.k))
    (do
      let M ← fetch s (s.desc ms1)
      pure (store (s.desc md) (pow2 s.ring M) s))
    s

/-- BDEC (rule R145). -/
def execBdec (md ms1 : Idx) (s : State) : Host.Outcome State Fault Refusal :=
  runCommand 0x11 [(.ms1, ms1), (.md, md)]
    (descIs (s.desc md) (descRows (s.desc ms1)) (descCols (s.desc ms1) * s.ring.k))
    (do
      let M ← fetch s (s.desc ms1)
      pure (store (s.desc md) (bdec s.ring M) s))
    s

/-- BDINV (rule R146). -/
def execBdinv (md ms1 : Idx) (s : State) : Host.Outcome State Fault Refusal :=
  runCommand 0x12 [(.ms1, ms1), (.md, md)]
    (descCols (s.desc ms1) % s.ring.k == 0 &&
      descIs (s.desc md) (descRows (s.desc ms1)) (descCols (s.desc ms1) / s.ring.k))
    (do
      let M ← fetch s (s.desc ms1)
      pure (store (s.desc md) (bdinv s.ring M) s))
    s

/-- FLAT (rule R147). -/
def execFlat (md ms1 : Idx) (s : State) : Host.Outcome State Fault Refusal :=
  runCommand 0x13 [(.ms1, ms1), (.md, md)]
    (descCols (s.desc ms1) % s.ring.k == 0 &&
      descIs (s.desc md) (descRows (s.desc ms1)) (descCols (s.desc ms1)))
    (do
      let M ← fetch s (s.desc ms1)
      pure (store (s.desc md) (flat s.ring M) s))
    s

end Sys2Proof.Machine
end

