-- ==== Sys2Proof/Machine/Gsw.lean ====
section
/-! DEFINITION. The ciphertext unit (42_gsw.md): key assembly, encryption, the carry-propagating decoder, the homomorphic
operations and the fake-key band check, and the commands of opcodes 0x20 to 0x26. -/

namespace Sys2Proof.Machine

open Sys2Proof

/-- The noise band, for an integer of any sign (rule R161). -/
def band (R : RingCtx) (b : Int) : Bool := decide ((R.q : Int) ≤ 4 * b) && decide (4 * b < 3 * (R.q : Int))

/-- The SecretKey for t, `transpose(pow2([[1, −t]]))` (rule R162). -/
def secretKey (R : RingCtx) (t : Elem) : Mat :=
  transpose (pow2 R (matOf 1 2 fun _ j => if j = 0 then constElem R 1 else polyNeg R t))

/-- The PublicKey `[[ add(mul(b1, t), e), b1 ]]` (rule R164). -/
def publicKey (R : RingCtx) (t b1 e : Elem) : Mat :=
  matOf 1 2 fun _ j => if j = 0 then polyAdd R (polyMul R b1 t) e else b1

/-- The encryption of pt under the drawn R-matrix and the key (rule R165). -/
def encrypt (R : RingCtx) (pt : Elem) (draw key : Mat) : Mat :=
  flat R (madd R (ident R pt) (bdec R (mmul R draw key)))

/-- The decoder's levels j-1 down to 0 of rule R166, from the running integer z, on the level values v(0) .. v(k-1) of one
coefficient; `reduce` is DEC_REDUCE (rule R167). -/
def decodeLevels (R : RingCtx) (reduce : Bool) (v : Nat → Nat) : Nat → Nat → Nat
  | 0, z => z
  | j + 1, z =>
    let b : Int := (v j : Int) - (z : Int) * (2 ^ j : Nat)
    let b' : Int := if reduce then (modq R b : Int) else b
    decodeLevels R reduce v j (if band R b' then z + 2 ^ (R.k - 1 - j) else z)

/-- `decode(V)` for a k×1 column (rule R166). -/
def decodeColumn (R : RingCtx) (reduce : Bool) (V : Mat) : Elem :=
  elemOf R.n fun t => decodeLevels R reduce (fun j => V.coef j 0 t) R.k 0

/-- Rows 0 .. m-1 of a matrix. -/
def topRows (m : Nat) (M : Mat) : Mat := matOf m M.cols M.get

/-- The decryption of a ciphertext with a key: `decode` of (top k rows of C) · SK (rule R168). -/
def decrypt (R : RingCtx) (reduce : Bool) (C SK : Mat) : Mat :=
  matOf 1 1 fun _ _ => decodeColumn R reduce (mmul R (topRows R.k C) SK)

/-- The homomorphic constant-multiplication, `flat(mmul(flat(ident(g)), C))` (rule R169). -/
def homMulConst (R : RingCtx) (C : Mat) (g : Elem) : Mat := flat R (mmul R (flat R (ident R g)) C)

/-- The homomorphic addition, `flat(madd(C1, C2))` (rule R170). -/
def homAdd (R : RingCtx) (C1 C2 : Mat) : Mat := flat R (madd R C1 C2)

/-- The constant term the fake-key band check tests: coefficient 0 of `mmul(bdec(PK), FSK)` (rule R171). -/
def checkTerm (R : RingCtx) (PK FSK : Mat) : Nat := (mmul R (bdec R PK) FSK).coef 0 0 0

/-- SKGEN (rule R163). -/
def execSkgen (md ms1 : Idx) (s : State) : Host.Outcome State Fault Refusal :=
  runCommand 0x20 [(.ms1, ms1), (.md, md)]
    (descIs (s.desc ms1) 1 1 && descIs (s.desc md) s.ring.width 1)
    (do
      let T ← fetch s (s.desc ms1)
      pure (store (s.desc md) (secretKey s.ring (T.get 0 0)) s))
    s

/-- PKGEN (rule R164). -/
def execPkgen (md ms1 : Idx) (s : State) : Host.Outcome State Fault Refusal :=
  runCommand 0x21 [(.ms1, ms1), (.md, md)]
    (descIs (s.desc ms1) 1 3 && descIs (s.desc md) 1 2)
    (do
      let A ← fetch s (s.desc ms1)
      pure (store (s.desc md) (publicKey s.ring (A.get 0 0) (A.get 0 1) (A.get 0 2)) s))
    s

/-- ENC (rule R165). -/
def execEnc (md ms1 ms2 ms3 : Idx) (s : State) : Host.Outcome State Fault Refusal :=
  runCommand 0x22 [(.ms1, ms1), (.ms2, ms2), (.ms3, ms3), (.md, md)]
    (descIs (s.desc ms1) 1 1 && descRows (s.desc ms2) == s.ring.width &&
      descRows (s.desc ms3) == descCols (s.desc ms2) && descCols (s.desc ms3) == 2 &&
      descIs (s.desc md) s.ring.width s.ring.width)
    (do
      let P ← fetch s (s.desc ms1)
      let D ← fetch s (s.desc ms2)
      let K ← fetch s (s.desc ms3)
      pure (store (s.desc md) (encrypt s.ring (P.get 0 0) D K) s))
    s

/-- DEC (rule R168). -/
def execDec (md ms1 ms2 : Idx) (s : State) : Host.Outcome State Fault Refusal :=
  runCommand 0x23 [(.ms1, ms1), (.ms2, ms2), (.md, md)]
    (descIs (s.desc ms1) s.ring.width s.ring.width && descIs (s.desc ms2) s.ring.width 1 &&
      descIs (s.desc md) 1 1)
    (do
      let C ← fetch s (s.desc ms1)
      let K ← fetch s (s.desc ms2)
      pure (store (s.desc md) (decrypt s.ring s.params.decReduce C K) s))
    s

/-- HMC, the homomorphic constant-multiplier (rule R169). -/
def execHmc (md ms1 ms2 : Idx) (s : State) : Host.Outcome State Fault Refusal :=
  runCommand 0x24 [(.ms1, ms1), (.ms2, ms2), (.md, md)]
    (descIs (s.desc ms1) s.ring.width s.ring.width && descIs (s.desc ms2) 1 1 &&
      descIs (s.desc md) s.ring.width s.ring.width)
    (do
      let C ← fetch s (s.desc ms1)
      let G ← fetch s (s.desc ms2)
      pure (store (s.desc md) (homMulConst s.ring C (G.get 0 0)) s))
    s

/-- HADD (rule R170). -/
def execHadd (md ms1 ms2 : Idx) (s : State) : Host.Outcome State Fault Refusal :=
  runCommand 0x25 [(.ms1, ms1), (.ms2, ms2), (.md, md)]
    (descIs (s.desc ms1) s.ring.width s.ring.width && descIs (s.desc ms2) s.ring.width s.ring.width &&
      descIs (s.desc md) s.ring.width s.ring.width)
    (do
      let C1 ← fetch s (s.desc ms1)
      let C2 ← fetch s (s.desc ms2)
      pure (store (s.desc md) (homAdd s.ring C1 C2) s))
    s

/-- CHKSK: STATUS.CHK <- the band check; nothing is stored (rules R171, R172). -/
def execChksk (ms1 ms2 : Idx) (s : State) : Host.Outcome State Fault Refusal :=
  runCommand 0x26 [(.ms1, ms1), (.ms2, ms2)]
    (descIs (s.desc ms1) 1 2 && descIs (s.desc ms2) s.ring.width 1)
    (do
      let PK ← fetch s (s.desc ms1)
      let FSK ← fetch s (s.desc ms2)
      pure { s with chk := band s.ring (checkTerm s.ring PK FSK) })
    s

end Sys2Proof.Machine
end

