-- ==== Sys2Proof/Machine/Dispatch.lean ====
section
/-! DEFINITION. One arm per command: the meaning that runs it. -/

namespace Sys2Proof.Machine

open Sys2Proof

def exec (i : Instr) (s : State) : Host.Outcome State Fault Refusal :=
  match i with
  | .nop => Sys2Proof.Machine.execNop s
  | .madd md ms1 ms2 => Sys2Proof.Machine.execMadd md ms1 ms2 s
  | .msub md ms1 ms2 => Sys2Proof.Machine.execMsub md ms1 ms2 s
  | .mneg md ms1 => Sys2Proof.Machine.execMneg md ms1 s
  | .mmul md ms1 ms2 => Sys2Proof.Machine.execMmul md ms1 ms2 s
  | .mscale md ms1 ms2 => Sys2Proof.Machine.execMscale md ms1 ms2 s
  | .mident md ms1 => Sys2Proof.Machine.execMident md ms1 s
  | .mcopy md ms1 => Sys2Proof.Machine.execMcopy md ms1 s
  | .mtrans md ms1 => Sys2Proof.Machine.execMtrans md ms1 s
  | .pow2 md ms1 => Sys2Proof.Machine.execPow2 md ms1 s
  | .bdec md ms1 => Sys2Proof.Machine.execBdec md ms1 s
  | .bdinv md ms1 => Sys2Proof.Machine.execBdinv md ms1 s
  | .flat md ms1 => Sys2Proof.Machine.execFlat md ms1 s
  | .skgen md ms1 => Sys2Proof.Machine.execSkgen md ms1 s
  | .pkgen md ms1 => Sys2Proof.Machine.execPkgen md ms1 s
  | .enc md ms1 ms2 ms3 => Sys2Proof.Machine.execEnc md ms1 ms2 ms3 s
  | .dec md ms1 ms2 => Sys2Proof.Machine.execDec md ms1 ms2 s
  | .hmc md ms1 ms2 => Sys2Proof.Machine.execHmc md ms1 ms2 s
  | .hadd md ms1 ms2 => Sys2Proof.Machine.execHadd md ms1 ms2 s
  | .chksk ms1 ms2 => Sys2Proof.Machine.execChksk ms1 ms2 s

end Sys2Proof.Machine
end

