-- ==== Sys2Proof/Machine/Reset.lean ====
section
/-! DEFINITION. The two resets (70_reset_and_hazards.md rules R230 to R233). -/

namespace Sys2Proof.Machine

open Sys2Proof

/-- The addresses of the words a soft reset draws when it abandons command w: words t < n of every slot in the region of
MD[w.MD], if w's opcode is defined and has a destination and that descriptor is valid (rule R233). Words t ≥ NMAX do not
exist, so with a CFG whose LOGN is above LOGN_MAX the region ends at NMAX (log 6). -/
def abandonedWords (s : State) (w : Word) : List Nat :=
  let d := s.desc (mdOf w)
  if opcodeHasDest (opcOf w) && descValid s.params d then
    (List.range (descRows d * descCols d)).flatMap fun x =>
      (List.range (min s.ring.n s.params.nmax)).map fun t => wordAddr s.params (descBase d + x) t
  else []

/-- PM after free words, numbered from `first`, are drawn for the given addresses (rule R233, 93_implementation_defined.md
I2): each an independent value, and the words count as written. -/
def drawWords (first : Nat) (m : Memory) (addrs : List Nat) : Memory :=
  m.writeAll (addrs.zipIdx.map fun a => (a.1, Config.freeWord (first + a.2)))

/-- The draws of a soft reset: for the pending command, if there is one. -/
def abandonPending (s : State) : State :=
  match s.pend with
  | none   => s
  | some w =>
    { s with pm := drawWords s.draws s.pm (abandonedWords s w), draws := s.draws + (abandonedWords s w).length }

/-- Every register at its value after a reset (10_state.md rule R43). -/
def resetRegisters (s : State) : State :=
  { s with cfg := 0, done := false, err := false, haz := false, aerr := false, chk := false, cause := 0, lastCmd := 0,
           ie := false, pmaddr := 0, md := Vector.replicate 16 0, pend := none }

/-- The soft reset, one step (rule R233): the pending command is abandoned, every register is reset, PM is otherwise
kept. -/
def softReset (s : State) : State := resetRegisters (abandonPending s)

/-- The power-on reset (rule R231): every register is reset and every PM word is unwritten. The implementation's
parameters, the schedule, the host's own record and the numbering of free words are not the engine's to reset (log 16). -/
def powerOnReset (s : State) : State := { resetRegisters s with pm := ⟨[]⟩ }

end Sys2Proof.Machine
end

