-- ==== Sys2Proof/Machine/Window.lean ====
section
/-! DEFINITION. The host window: the registers by offset (10_state.md rules R22 to R36) and the host's accesses to them
(20_memory.md rules R60 to R68, R77). -/

namespace Sys2Proof.Machine

open Sys2Proof

/-! ## Offsets -/

/-- The registers of the host window (10_state.md rules R22 to R35). -/
inductive Reg where
  | id
  | ver
  | param
  | pslots
  | cfg
  | status
  | cause
  | cmd
  | ctrl
  | pmaddr
  | pmdata
  | md (i : Idx)
deriving DecidableEq, Repr

/-- The register at an offset of the window; none at an offset that is not a multiple of 4 or is reserved (20_memory.md
rule R61, 10_state.md rule R36). -/
def regAt (off : Nat) : Option Reg :=
  match off with
  | 0x00 => some .id
  | 0x04 => some .ver
  | 0x08 => some .param
  | 0x0C => some .pslots
  | 0x10 => some .cfg
  | 0x14 => some .status
  | 0x18 => some .cause
  | 0x1C => some .cmd
  | 0x20 => some .ctrl
  | 0x24 => some .pmaddr
  | 0x28 => some .pmdata
  | off  =>
    if 0x40 ≤ off ∧ off < 0x80 ∧ off % 4 = 0 then some (.md (BitVec.ofNat 4 ((off - 0x40) / 4))) else none

/-! ## PM's port (20_memory.md rules R65 to R67) -/

/-- PMADDR.COEF, bits [15:0] (10_state.md rule R34). -/
def pmCoef (a : Word) : Nat := (a.extractLsb' 0 16).toNat

/-- PMADDR.SLOT, bits [31:16] (10_state.md rule R34). -/
def pmSlot (a : Word) : Nat := (a.extractLsb' 16 16).toNat

/-- The address the port moves to after an access (20_memory.md rule R66). -/
def pmNext (s : State) : Word :=
  let lim := if s.cfgOk then s.ring.n else s.params.nmax
  let t := pmCoef s.pmaddr + 1
  if t = lim then BitVec.ofNat 16 (pmSlot s.pmaddr + 1) ++ 0#16
  else BitVec.ofNat 16 (pmSlot s.pmaddr) ++ BitVec.ofNat 16 t

/-- `advance()` (rule R66). -/
def advance (s : State) : State := { s with pmaddr := pmNext s }

/-- Whether PMADDR names a word of PM (rules R65, R67). -/
def pmInRange (s : State) : Bool :=
  decide (pmSlot s.pmaddr < s.params.slots) && decide (pmCoef s.pmaddr < s.params.nmax)

/-! ## Reads -/

/-- The value of a register that a read does not change: every one but PMDATA (rule R77). -/
def regValue (s : State) : Reg → Word
  | .id     => idWord
  | .ver    => verWord
  | .param  => paramWord s.params
  | .pslots => pslotsWord s.params
  | .cfg    => s.cfg
  | .status => s.statusWord
  | .cause  => s.cause
  | .cmd    => s.lastCmd
  | .ctrl   => s.ctrlWord
  | .pmaddr => s.pmaddr
  | .pmdata => 0
  | .md i   => s.desc i

/-- The host receives a value (log 9). -/
def deliver (v : Word) (s : State) : State := { s with reads := v :: s.reads }

/-- A read of PMDATA (rule R65). -/
def readPmdata (s : State) : Host.Outcome State Fault Refusal :=
  if s.busy then .next (deliver 0 s.setHaz)
  else if pmInRange s then
    match s.pmWord (pmSlot s.pmaddr) (pmCoef s.pmaddr) with
    | some v => .next (deliver v (advance s))
    | none   => .fault .unwrittenWord
  else .next (deliver 0 s.setAerr)

/-- A read of a register. -/
def readReg (r : Reg) (s : State) : Host.Outcome State Fault Refusal :=
  match r with
  | .pmdata => readPmdata s
  | r       => .next (deliver (regValue s r) s)

/-! ## Writes -/

/-- A write of CFG (10_state.md rule R26, 60_exceptions.md rule R206). -/
def writeCfg (v : Word) (s : State) : State :=
  if s.busy then s.setHaz
  else
    let t := { s with cfg := v &&& cfgMask }
    if t.cfgOk then t else recordError .badConfig 0xFF 0 t

/-- A write of STATUS: each of DONE, ERR, HAZ, AERR whose bit is 1 is cleared; with ERR, CAUSE becomes 0 (10_state.md rule
R28, 60_exceptions.md rule R208). -/
def writeStatus (v : Word) (s : State) : State :=
  let t := if v.getLsbD 2 then clearError s else s
  { t with done := t.done && !v.getLsbD 1, haz := t.haz && !v.getLsbD 3, aerr := t.aerr && !v.getLsbD 4 }

/-- A write of CMD (10_state.md rule R30, 60_exceptions.md rule R204). -/
def writeCmd (v : Word) (s : State) : State :=
  if s.busy then s.setHaz
  else if s.err then s
  else acceptCommand v s

/-- A write of CTRL: bit 0 makes a soft reset and nothing else of the value takes effect; else bit 1 is IE (10_state.md
rule R33). -/
def writeCtrl (v : Word) (s : State) : State :=
  if v.getLsbD 0 then softReset s else { s with ie := v.getLsbD 1 }

/-- A write of PMDATA (20_memory.md rule R65): the raw word is stored. -/
def writePmdata (v : Word) (s : State) : State :=
  if s.busy then s.setHaz
  else if pmInRange s then
    advance { s with pm := s.pm.write (wordAddr s.params (pmSlot s.pmaddr) (pmCoef s.pmaddr)) v }
  else s.setAerr

/-- A write of a descriptor register (10_state.md rule R31). -/
def writeMd (i : Idx) (v : Word) (s : State) : State :=
  if s.busy then s.setHaz else { s with md := s.md.set i.toNat v }

/-- A write of a register. Writes of the read-only registers ID, VER, PARAM, PSLOTS and CAUSE are ignored without a flag
(20_memory.md rule R61). -/
def writeReg (r : Reg) (v : Word) (s : State) : State :=
  match r with
  | .id | .ver | .param | .pslots | .cause => s
  | .cfg    => writeCfg v s
  | .status => writeStatus v s
  | .cmd    => writeCmd v s
  | .ctrl   => writeCtrl v s
  | .pmaddr => { s with pmaddr := v }
  | .pmdata => writePmdata v s
  | .md i   => writeMd i v s

/-! ## Accesses -/

/-- The register an access of the given width at an offset reaches; none for an access error (20_memory.md rule R61). -/
def target (off width : Nat) : Option Reg := if width = 4 then regAt off else none

/-- Whether a bus address lies in the host window (20_memory.md rule R60). -/
def inWindow (p : Config.Params) (addr : Nat) : Bool := decide (p.hostBase ≤ addr) && decide (addr < p.hostBase + 256)

/-- One host access (20_memory.md rules R60, R61): outside the window it is no access of this engine (log 10); an access
error sets STATUS.AERR, reads 0 and changes nothing else (log 11). -/
def hostAccess (a : Access) (s : State) : Host.Outcome State Fault Refusal :=
  match a with
  | .read addr width =>
    if inWindow s.params addr then
      match target (addr - s.params.hostBase) width with
      | some r => readReg r s
      | none   => .next (deliver 0 s.setAerr)
    else .refused .outsideWindow
  | .write addr width v =>
    if inWindow s.params addr then
      match target (addr - s.params.hostBase) width with
      | some r => .next (writeReg r v s)
      | none   => .next s.setAerr
    else .refused .outsideWindow

/-- The byte at a byte offset of the window, for a register other than PMDATA: little-endian, byte i of a register is its
bits [8i+7:8i] (20_memory.md rule R62). No access of the engine is a byte wide; this is the layout a host processor sees
in the words it transfers (log 19). -/
def windowByte (s : State) (off : Nat) : Option (BitVec 8) :=
  match regAt (off - off % 4) with
  | some .pmdata => none
  | some r       => some ((regValue s r).extractLsb' (8 * (off % 4)) 8)
  | none         => none

end Sys2Proof.Machine
end

