-- ==== Sys2Proof/Machine/Sequencer.lean ====
section
/-! DEFINITION. The command sequencer and the order of the agents' steps (20_memory.md rules R70, R71). -/

namespace Sys2Proof.Machine

open Sys2Proof

/-- A turn of the engine (20_memory.md rule R70): the pending word is decoded and executed, or its error is raised
(60_exceptions.md rule R205 steps 1 and 2). With nothing pending the engine has no enabled step (70_reset_and_hazards.md
rule R247) and keeps its state (60_exceptions.md rule R218). -/
def engineTurn (s : State) : Host.Outcome State Fault Refusal :=
  match s.pend with
  | none => .next s
  | some w =>
    match decode w with
    | .ok i    => exec i s
    | .error e => .next (raiseError (decodeCause e) (opcOf w) 0 s)

/-- One event (20_memory.md rule R71). -/
def handle (e : Event) (s : State) : Host.Outcome State Fault Refusal :=
  match e with
  | .host a  => hostAccess a s
  | .engine  => engineTurn s
  | .powerOn => .next (powerOnReset s)

/-- The next event of the schedule, taken off it. When the schedule is empty no agent moves and the state stays as it is,
a pending command with it: nothing here makes the engine take its step (93_implementation_defined.md I9; log 8). -/
def nextStep (s : State) : Host.Outcome State Fault Refusal :=
  match s.schedule with
  | []        => .next s
  | e :: rest => handle e { s with schedule := rest }

/-- The state in which command word w has been accepted (10_state.md rule R30) and the engine's turn is next. -/
def placeCommand (w : Word) (s : State) : State := { acceptCommand w s with schedule := .engine :: s.schedule }

end Sys2Proof.Machine
end

