-- ==== Sys2Proof/Machine/Step.lean ====
section
/-! DEFINITION. One step of the machine, and where its next command is found. -/

namespace Sys2Proof.Machine

open Sys2Proof

/-- One step: the next event of the schedule (20_memory.md rule R71). -/
def step (s : State) : Host.Outcome State Fault Refusal := nextStep s

/-- The state whose very next step runs the command word w: PEND holds it and the engine's turn is next (log 12). A command
is one 32-bit word, so nothing lies above `nbits`. -/
def State.withFetchWord (s : State) (nbits w : Nat) : State := placeCommand (BitVec.ofNat 32 (w % 2 ^ nbits)) s

end Sys2Proof.Machine
end

