-- ==== Sys2Proof/Safety.lean ====
section
/-! DEFINITION. What counts as a safe run, and the terms the claims about the machine use: launch and end of a run, the
invariant of the machine, one event at a time, runs without end and the fairness premise, and the words a command reads and
writes. -/

namespace Sys2Proof.Machine

open Sys2Proof

/-! ## Launch and end of a run (70_reset_and_hazards.md rules R246, R247) -/

/-- A clean entry (rule R246): nothing pending and no error or access flag set. A model fault has no state, so none is
recorded in one. -/
abbrev CleanEntry (s : State) : Prop := s.pend = none ∧ s.err = false ∧ s.haz = false ∧ s.aerr = false

/-- The run is over (rule R247): the host has performed its last operation and nothing is pending. What is then observed
is the state and, in `reads`, the values the host read. -/
abbrev RunOver (s : State) : Prop := s.schedule = [] ∧ s.pend = none

/-! ## The invariant of the machine -/

/-- PM is canonical and lists only words PM has (10_state.md rule R40). -/
abbrev PmInv (s : State) : Prop := s.pm.wf = true ∧ ∀ c ∈ s.pm.cells, c.1 < s.params.slots * s.params.nmax

/-- The bits of CFG that read 0 (10_state.md rule R24). -/
abbrev CfgInv (s : State) : Prop := s.cfg &&& 0xFFFFF0C0 = 0

/-- A CAUSE register and STATUS.ERR agree (60_exceptions.md rules R201, R202, R208): CAUSE is 0 exactly while ERR is 0;
otherwise its CODE is one of 1 to 6, OPND is 1 to 4 for BAD_DESCRIPTOR and 0 else, OPC is 0xFF for BAD_CONFIG, and bits
[31:19] are 0. -/
abbrev CauseInv (s : State) : Prop :=
  (s.err = false → s.cause = 0) ∧
  (s.err = true →
    1 ≤ (s.cause.extractLsb' 0 8).toNat ∧ (s.cause.extractLsb' 0 8).toNat ≤ 6 ∧ s.cause.extractLsb' 19 13 = 0 ∧
    (if s.cause.extractLsb' 0 8 = 4 then
        1 ≤ (s.cause.extractLsb' 16 3).toNat ∧ (s.cause.extractLsb' 16 3).toNat ≤ 4
      else s.cause.extractLsb' 16 3 = 0) ∧
    (s.cause.extractLsb' 0 8 = 6 → s.cause.extractLsb' 8 8 = 0xFF))

/-- A pending command was accepted with ERR = 0, is the last accepted one, and DONE has been cleared since (10_state.md
rule R30); DONE and ERR are both set only with BAD_CONFIG in CAUSE (60_exceptions.md rule R211). -/
abbrev PendInv (s : State) : Prop :=
  (s.pend.isSome = true → s.pend = some s.lastCmd ∧ s.done = false ∧ s.err = false) ∧
  (s.done = true → s.err = true → s.cause = 0x0000FF06)

/-- The invariant: legal implementation parameters and the four parts above. -/
abbrev EngineInv (s : State) : Prop := s.params.Legal ∧ PmInv s ∧ CfgInv s ∧ CauseInv s ∧ PendInv s

/-! ## One event at a time -/

/-- What the machine does when e is the next event of the schedule. -/
def after (e : Event) (s : State) : Host.Outcome State Fault Refusal := step { s with schedule := e :: s.schedule }

/-- `RD off`: a 32-bit host read at an offset of the window (30_encoding.md rule R99). -/
def hostRead (s : State) (off : Nat) : Event := .host (.read (s.params.hostBase + off) 4)

/-- `WR off, v`: a 32-bit host write at an offset of the window (30_encoding.md rule R99). -/
def hostWrite (s : State) (off : Nat) (v : Word) : Event := .host (.write (s.params.hostBase + off) 4 v)

/-! ## Runs without end, and weak fairness (70_reset_and_hazards.md rule R243, 93_implementation_defined.md I9) -/

/-- The run from s in which the events σ 0, σ 1, σ 2, .. happen, after the first m of them: any interleaving of the agents,
ended or not (20_memory.md rule R71). A fault or a refusal ends it for good. -/
def runAlong (σ : Nat → Event) (s : State) : Nat → Host.Outcome State Fault Refusal
  | 0 => .next s
  | m + 1 =>
    match runAlong σ s m with
    | .next t    => after (σ m) t
    | .fault r   => .fault r
    | .refused r => .refused r

/-- After m events the run goes on and a command is pending: the engine's step is enabled (20_memory.md rule R70). -/
def EngineEnabled (σ : Nat → Event) (s : State) (m : Nat) : Prop := ∃ t, runAlong σ s m = .next t ∧ t.pend ≠ none

/-- The premise of weak fairness (rule R243): if from some point on the engine's step stays enabled, it is eventually taken.
It is a premise on the order of events, named by the claims that need it, and no rule of the machine (I9): no step
assumes it. -/
def WeaklyFair (σ : Nat → Event) (s : State) : Prop :=
  ∀ m, (∀ j, m ≤ j → EngineEnabled σ s j) → ∃ j, m ≤ j ∧ σ j = .engine

/-! ## The words a command reads and writes -/

/-- The rows of the matrix MDi names. -/
def rowsOf (s : State) (i : Idx) : Nat := descRows (s.desc i)

/-- The columns of the matrix MDi names. -/
def colsOf (s : State) (i : Idx) : Nat := descCols (s.desc i)

/-- The address of coefficient t of element (r, c) of the matrix MDi names (10_state.md rule R31). -/
def addrOf (s : State) (i : Idx) (r c t : Nat) : Nat := wordAddr s.params (descSlot (s.desc i) r c) t

/-- Coefficient t of element (r, c) of the matrix MDi names, as a command reads it: the residue modulo q of the word in PM
(20_memory.md rule R63). -/
def residue (s : State) (i : Idx) (r c t : Nat) : Nat := ((s.pm.read (addrOf s i r c t)).getD 0).toNat % s.ring.q

/-- Every word of the matrix MDi names has been written. -/
abbrev Written (s : State) (i : Idx) : Prop :=
  ∀ r < rowsOf s i, ∀ c < colsOf s i, ∀ t < s.ring.n, (s.pm.read (addrOf s i r c t)).isSome = true

/-- A state in which a command with these source and destination descriptors passes every check but that of shapes, and
reads written words only: legal parameters, a canonical PM, a valid CFG, valid descriptors, written sources. -/
abbrev Ready (s : State) (sources dests : List Idx) : Prop :=
  s.params.Legal ∧ s.pm.wf = true ∧ s.cfgOk = true ∧
    (∀ i ∈ sources ++ dests, descValid s.params (s.desc i) = true) ∧ ∀ i ∈ sources, Written s i

/-- t is s after a command that completed and stored f in the matrix MD names: each word of the destination holds f's
coefficient, every other word of PM reads as before, DONE is set, PEND is none, and every other field is as it was. -/
def Stores (s t : State) (md : Idx) (f : Nat → Nat → Nat → Nat) : Prop :=
  (∀ r < rowsOf s md, ∀ c < colsOf s md, ∀ x < s.ring.n,
    ∃ v, t.pm.read (addrOf s md r c x) = some v ∧ v.toNat = f r c x) ∧
  (∀ a, (∀ r < rowsOf s md, ∀ c < colsOf s md, ∀ x < s.ring.n, a ≠ addrOf s md r c x) →
    t.pm.read a = s.pm.read a) ∧
  t = { s with pm := t.pm, done := true, pend := none }

end Sys2Proof.Machine
end

