-- ==== Sys2Proof/Certificates/Slice0/Obligations.lean ====
section
/-! DEFINITION. The statements for the provers. The formulas of the spec's rules are written out first, on plain coefficient
functions and with Mathlib's sums, apart from the model's own lists; the statements then say that the machine does what
they give. -/

namespace Sys2Proof.Spec

open Sys2Proof Sys2Proof.Machine

/-- The coefficients of a matrix of ring elements: row, column, power of x (00_scope.md rule R12). -/
abbrev Coefs := Nat → Nat → Nat → Nat

/-- The non-negative residue of an integer modulo q (00_scope.md rule R10). -/
def residueOf (q : Nat) (v : Int) : Nat := (v % (q : Int)).toNat

/-- Coefficient t of the product modulo x^n + 1, before reduction modulo q (40_ring.md rule R111): the products a_i·b_j with
i + j = t less those with i + j = t + n. -/
def negacyclic (n : Nat) (a b : Nat → Nat) (t : Nat) : Int :=
  ∑ i ∈ Finset.range n, ∑ j ∈ Finset.range n,
    if i + j = t then (a i : Int) * b j else if i + j = t + n then -((a i : Int) * b j) else 0

/-- The product of an r×m by an m×c matrix (40_ring.md rules R111, R113). -/
def product (q n m : Nat) (A B : Coefs) : Coefs :=
  fun r c t => residueOf q (∑ l ∈ Finset.range m, negacyclic n (A r l) (B l c) t)

/-- powersOf2 (41_gadget.md rule R140). -/
def powers (q k : Nat) (A : Coefs) : Coefs := fun r c t => 2 ^ (c % k) * A r (c / k) t % q

/-- bitDecomp (41_gadget.md rule R141). -/
def bits (k : Nat) (A : Coefs) : Coefs := fun r c t => A r (c / k) t / 2 ^ (c % k) % 2

/-- bitDecompInv (41_gadget.md rule R142). -/
def unbits (q k : Nat) (A : Coefs) : Coefs := fun r j t => (∑ l ∈ Finset.range k, 2 ^ l * A r (j * k + l) t) % q

/-- flatten (41_gadget.md rule R143). -/
def flatten (q k : Nat) (A : Coefs) : Coefs := bits k (unbits q k A)

/-- g·Identity (40_ring.md rule R113). -/
def diagonal (g : Nat → Nat) : Coefs := fun r c t => if r = c then g t else 0

/-- The coefficient-wise sum (40_ring.md rule R112). -/
def plus (q : Nat) (A B : Coefs) : Coefs := fun r c t => (A r c t + B r c t) % q

/-- The noise band (42_gsw.md rule R161). -/
def InBand (q : Nat) (b : Int) : Prop := (q : Int) ≤ 4 * b ∧ 4 * b < 3 * (q : Int)

/-- What the decoder makes of the level values v(0) .. v(k-1) of one coefficient (42_gsw.md rules R166, R167): z is below
q, and bit k-1-j of z says whether v(j) less the already known low bits of z, shifted by j, is in the noise band. -/
def Decodes (q k : Nat) (reduce : Bool) (v : Nat → Nat) (z : Nat) : Prop :=
  z < q ∧ ∀ j < k,
    (z / 2 ^ (k - 1 - j) % 2 = 1 ↔
      let b : Int := (v j : Int) - ((z % 2 ^ (k - 1 - j) * 2 ^ j : Nat) : Int)
      InBand q (if reduce then (residueOf q b : Int) else b))

/-- The state in which an error has been raised from a command (60_exceptions.md rule R201). -/
def raised (s : State) (code : BitVec 8) (opc : Opcode) (opnd : BitVec 3) : State :=
  { s with cause := if s.err then s.cause else 0#13 ++ opnd ++ opc ++ code, err := true, pend := none }

/-- The operand fields a command uses, in the order MS1, MS2, MS3, MD (60_exceptions.md rule R205 step 4), with CAUSE.OPND's
number of each (10_state.md rule R29). -/
def usedFields : Instr → List (BitVec 3 × Idx)
  | .nop => []
  | .madd d a b | .msub d a b | .mmul d a b | .mscale d a b => [(1, a), (2, b), (4, d)]
  | .dec d a b | .hmc d a b | .hadd d a b => [(1, a), (2, b), (4, d)]
  | .mneg d a | .mident d a | .mcopy d a | .mtrans d a => [(1, a), (4, d)]
  | .pow2 d a | .bdec d a | .bdinv d a | .flat d a | .skgen d a | .pkgen d a => [(1, a), (4, d)]
  | .enc d a b c => [(1, a), (2, b), (3, c), (4, d)]
  | .chksk a b => [(1, a), (2, b)]

/-- The descriptors a command reads through. -/
def sources : Instr → List Idx
  | .nop => []
  | .madd _ a b | .msub _ a b | .mmul _ a b | .mscale _ a b => [a, b]
  | .dec _ a b | .hmc _ a b | .hadd _ a b => [a, b]
  | .mneg _ a | .mident _ a | .mcopy _ a | .mtrans _ a => [a]
  | .pow2 _ a | .bdec _ a | .bdinv _ a | .flat _ a | .skgen _ a | .pkgen _ a => [a]
  | .enc _ a b c => [a, b, c]
  | .chksk a b => [a, b]

/-- MDi names an r×c matrix. -/
abbrev HasShape (s : State) (i : Idx) (r c : Nat) : Prop := rowsOf s i = r ∧ colsOf s i = c

/-- The shapes a command requires (30_encoding.md rule R93, column shape; N = 2k). -/
abbrev Shapes (s : State) : Instr → Prop
  | .nop => True
  | .madd d a b | .msub d a b =>
    HasShape s b (rowsOf s a) (colsOf s a) ∧ HasShape s d (rowsOf s a) (colsOf s a)
  | .mneg d a | .mcopy d a => HasShape s d (rowsOf s a) (colsOf s a)
  | .mmul d a b => colsOf s a = rowsOf s b ∧ HasShape s d (rowsOf s a) (colsOf s b)
  | .mscale d a b => HasShape s b 1 1 ∧ HasShape s d (rowsOf s a) (colsOf s a)
  | .mident d a => HasShape s a 1 1 ∧ HasShape s d (2 * s.ring.k) (2 * s.ring.k)
  | .mtrans d a => HasShape s d (colsOf s a) (rowsOf s a)
  | .pow2 d a | .bdec d a => HasShape s d (rowsOf s a) (colsOf s a * s.ring.k)
  | .bdinv d a => rowsOf s d = rowsOf s a ∧ colsOf s d * s.ring.k = colsOf s a
  | .flat d a => s.ring.k ∣ colsOf s a ∧ HasShape s d (rowsOf s a) (colsOf s a)
  | .skgen d a => HasShape s a 1 1 ∧ HasShape s d (2 * s.ring.k) 1
  | .pkgen d a => HasShape s a 1 3 ∧ HasShape s d 1 2
  | .enc d a b c =>
    HasShape s a 1 1 ∧ rowsOf s b = 2 * s.ring.k ∧ HasShape s c (colsOf s b) 2 ∧
      HasShape s d (2 * s.ring.k) (2 * s.ring.k)
  | .dec d a b => HasShape s a (2 * s.ring.k) (2 * s.ring.k) ∧ HasShape s b (2 * s.ring.k) 1 ∧ HasShape s d 1 1
  | .hmc d a b =>
    HasShape s a (2 * s.ring.k) (2 * s.ring.k) ∧ HasShape s b 1 1 ∧ HasShape s d (2 * s.ring.k) (2 * s.ring.k)
  | .hadd d a b =>
    HasShape s a (2 * s.ring.k) (2 * s.ring.k) ∧ HasShape s b (2 * s.ring.k) (2 * s.ring.k) ∧
      HasShape s d (2 * s.ring.k) (2 * s.ring.k)
  | .chksk a b => HasShape s a 1 2 ∧ HasShape s b (2 * s.ring.k) 1

/-- MDi is a valid descriptor (10_state.md rule R32). -/
abbrev ValidDesc (s : State) (i : Idx) : Prop :=
  1 ≤ rowsOf s i ∧ 1 ≤ colsOf s i ∧ descBase (s.desc i) + rowsOf s i * colsOf s i ≤ s.params.slots

/-- CFGOK for a value of CFG (10_state.md rules R24, R25). -/
abbrev ValidCfg (p : Config.Params) (v : Word) : Prop :=
  1 ≤ (v.extractLsb' 0 6).toNat ∧ (v.extractLsb' 0 6).toNat ≤ p.logqMax ∧
    1 ≤ (v.extractLsb' 8 4).toNat ∧ (v.extractLsb' 8 4).toNat ≤ p.lognMax

/-- PMADDR's coefficient and slot (10_state.md rule R34). -/
def portCoef (s : State) : Nat := (s.pmaddr.extractLsb' 0 16).toNat
def portSlot (s : State) : Nat := (s.pmaddr.extractLsb' 16 16).toNat

/-- PMADDR after an access (20_memory.md rule R66): the next coefficient, or coefficient 0 of the next slot after the
last. -/
def portNext (s : State) : Word :=
  if portCoef s + 1 = (if ValidCfg s.params s.cfg then 2 ^ (s.cfg.extractLsb' 8 4).toNat else 2 ^ s.params.lognMax) then
    BitVec.ofNat 32 ((portSlot s + 1) % 65536 * 65536)
  else BitVec.ofNat 32 (portSlot s * 65536 + (portCoef s + 1) % 65536)

/-- Everything of the state but PM, in which two states that differ only in PM agree. -/
def SameButPm (s t : State) : Prop := t = { s with pm := t.pm }

/-- Two states that hold the same words 0 .. n-1 in every slot. -/
def SameElements (s t : State) : Prop := ∀ slot, ∀ x < s.ring.n, s.pmWord slot x = t.pmWord slot x

/-- The polynomial over the residues modulo q that an element stands for (00_scope.md rule R11). -/
noncomputable def poly (R : RingCtx) (p : Elem) : Polynomial (ZMod R.q) :=
  ∑ t ∈ Finset.range R.n, Polynomial.C (coeff p t : ZMod R.q) * Polynomial.X ^ t

end Sys2Proof.Spec

open Sys2Proof Sys2Proof.Machine Sys2Proof.Spec

/-! ## Encoding (30_encoding.md) -/

/-- Decoding an encoded command gives it back, for every command and every operand (rules R91, R93). -/
def Obligations.DecodeOfEncodeIsIdentity : Prop := ∀ i : Instr, decode (encode i) = .ok i

/-- A word that decodes to a command is that command's encoding: no two words spell one command, and no bit of a word is
dropped (rules R94, R97). -/
def Obligations.DecodedWordIsTheEncoding : Prop := ∀ (w : Word) (i : Instr), decode w = .ok i → encode i = w

/-- The decoder accepts exactly the well-formed words; an opcode outside the table is an illegal opcode, whatever the other
fields hold, and a defined opcode with a non-zero reserved or unused field is a reserved field (rules R94, R96). -/
def Obligations.DecodeAcceptsExactlyWellFormedWords : Prop :=
  ∀ w : Word,
    ((∃ i, decode w = .ok i) ↔ (rawOf w).wellFormed = true) ∧
    (decode w = .error .illegalOpcode ↔ (rawOf w).opcodeDefined = false) ∧
    (decode w = .error .reservedField ↔
      (rawOf w).opcodeDefined = true ∧ ((rawOf w).reservedZero && (rawOf w).unusedZero) = false)

/-- The example words of rule R98, and three words of 95_test_vectors.md section 4, decode to what they stand for. -/
def Obligations.SampleWordsDecode : Prop :=
  decode 0x00000000 = .ok .nop ∧ decode 0x04312000 = .ok (.mmul 3 1 2) ∧ decode 0x22401200 = .ok (.enc 4 0 1 2) ∧
  decode 0x26012000 = .ok (.chksk 1 2) ∧ decode 0x079A0000 = .ok (.mcopy 9 10) ∧
  decode 0x13FF0000 = .ok (.flat 15 15) ∧ decode 0x25B9A000 = .ok (.hadd 11 9 10)

/-! ## The step -/

/-- When the engine's turn is the next event and the pending word decodes to a command, the step is that command's
execution, with the turn taken off the schedule (20_memory.md rule R70; the schedule is the model's, log 7). -/
def Obligations.StepRunsTheDecodedCommand : Prop :=
  ∀ (s : State) (w : Word) (i : Instr), s.pend = some w → decode w = .ok i →
    after .engine s = exec i s ∧ ∀ rest, s.schedule = .engine :: rest → step s = exec i { s with schedule := rest }

/-- With nothing pending a turn of the engine changes nothing (70_reset_and_hazards.md rule R247, 60_exceptions.md rule
R218; that a turn may still be scheduled, and that a step with no event left keeps the state, are the model's, log 8). -/
def Obligations.IdleEngineKeepsState : Prop :=
  ∀ s : State, s.pend = none → after .engine s = .next s ∧ (s.schedule = [] → step s = .next s)

/-! ## The commands: completion, result and frame -/

/-- NOP completes in every state, and changes nothing but DONE and PEND (43_control.md rule R190). -/
def Obligations.NopCompletes : Prop :=
  ∀ s : State, exec .nop s = .next { s with done := true, pend := none }

/-- MADD (40_ring.md rule R114). -/
def Obligations.MaddStoresSums : Prop :=
  ∀ (md ms1 ms2 : Idx) (s : State), Ready s [ms1, ms2] [md] → Shapes s (.madd md ms1 ms2) →
    ∃ t, exec (.madd md ms1 ms2) s = .next t ∧
      Stores s t md fun r c x => (residue s ms1 r c x + residue s ms2 r c x) % s.ring.q

/-- MSUB (rule R115). -/
def Obligations.MsubStoresDifferences : Prop :=
  ∀ (md ms1 ms2 : Idx) (s : State), Ready s [ms1, ms2] [md] → Shapes s (.msub md ms1 ms2) →
    ∃ t, exec (.msub md ms1 ms2) s = .next t ∧
      Stores s t md fun r c x => residueOf s.ring.q ((residue s ms1 r c x : Int) - residue s ms2 r c x)

/-- MNEG (rule R116). -/
def Obligations.MnegStoresNegations : Prop :=
  ∀ (md ms1 : Idx) (s : State), Ready s [ms1] [md] → Shapes s (.mneg md ms1) →
    ∃ t, exec (.mneg md ms1) s = .next t ∧
      Stores s t md fun r c x => residueOf s.ring.q (-(residue s ms1 r c x : Int))

/-- MMUL (rules R111, R113, R117). -/
def Obligations.MmulStoresProduct : Prop :=
  ∀ (md ms1 ms2 : Idx) (s : State), Ready s [ms1, ms2] [md] → Shapes s (.mmul md ms1 ms2) →
    ∃ t, exec (.mmul md ms1 ms2) s = .next t ∧
      Stores s t md (product s.ring.q s.ring.n (colsOf s ms1) (residue s ms1) (residue s ms2))

/-- MSCALE (rules R111, R118). -/
def Obligations.MscaleStoresScaledElements : Prop :=
  ∀ (md ms1 ms2 : Idx) (s : State), Ready s [ms1, ms2] [md] → Shapes s (.mscale md ms1 ms2) →
    ∃ t, exec (.mscale md ms1 ms2) s = .next t ∧
      Stores s t md fun r c x =>
        residueOf s.ring.q (negacyclic s.ring.n (residue s ms2 0 0) (residue s ms1 r c) x)

/-- MIDENT (rules R113, R119). -/
def Obligations.MidentStoresDiagonal : Prop :=
  ∀ (md ms1 : Idx) (s : State), Ready s [ms1] [md] → Shapes s (.mident md ms1) →
    ∃ t, exec (.mident md ms1) s = .next t ∧ Stores s t md (diagonal (residue s ms1 0 0))

/-- MCOPY (rule R120): the copy is canonical. -/
def Obligations.McopyStoresResidues : Prop :=
  ∀ (md ms1 : Idx) (s : State), Ready s [ms1] [md] → Shapes s (.mcopy md ms1) →
    ∃ t, exec (.mcopy md ms1) s = .next t ∧ Stores s t md (residue s ms1)

/-- MTRANS (rule R121). -/
def Obligations.MtransStoresTranspose : Prop :=
  ∀ (md ms1 : Idx) (s : State), Ready s [ms1] [md] → Shapes s (.mtrans md ms1) →
    ∃ t, exec (.mtrans md ms1) s = .next t ∧ Stores s t md fun r c x => residue s ms1 c r x

/-- POW2 (41_gadget.md rules R140, R144). -/
def Obligations.Pow2StoresPowers : Prop :=
  ∀ (md ms1 : Idx) (s : State), Ready s [ms1] [md] → Shapes s (.pow2 md ms1) →
    ∃ t, exec (.pow2 md ms1) s = .next t ∧ Stores s t md (powers s.ring.q s.ring.k (residue s ms1))

/-- BDEC (rules R141, R145). -/
def Obligations.BdecStoresBits : Prop :=
  ∀ (md ms1 : Idx) (s : State), Ready s [ms1] [md] → Shapes s (.bdec md ms1) →
    ∃ t, exec (.bdec md ms1) s = .next t ∧ Stores s t md (bits s.ring.k (residue s ms1))

/-- BDINV (rules R142, R146). -/
def Obligations.BdinvStoresWeightedSums : Prop :=
  ∀ (md ms1 : Idx) (s : State), Ready s [ms1] [md] → Shapes s (.bdinv md ms1) →
    ∃ t, exec (.bdinv md ms1) s = .next t ∧ Stores s t md (unbits s.ring.q s.ring.k (residue s ms1))

/-- FLAT (rules R143, R147). -/
def Obligations.FlatStoresNormalisedGroups : Prop :=
  ∀ (md ms1 : Idx) (s : State), Ready s [ms1] [md] → Shapes s (.flat md ms1) →
    ∃ t, exec (.flat md ms1) s = .next t ∧ Stores s t md (flatten s.ring.q s.ring.k (residue s ms1))

/-- SKGEN (42_gsw.md rules R162, R163): the powers of two, then the powers of two times the negated secret. -/
def Obligations.SkgenStoresSecretKey : Prop :=
  ∀ (md ms1 : Idx) (s : State), Ready s [ms1] [md] → Shapes s (.skgen md ms1) →
    ∃ t, exec (.skgen md ms1) s = .next t ∧
      Stores s t md fun l _ x =>
        if l < s.ring.k then (if x = 0 then 2 ^ l else 0)
        else 2 ^ (l - s.ring.k) * residueOf s.ring.q (-(residue s ms1 0 0 x : Int)) % s.ring.q

/-- PKGEN (rule R164): b1·t + e, then b1, from the row (t, b1, e). -/
def Obligations.PkgenStoresPublicKey : Prop :=
  ∀ (md ms1 : Idx) (s : State), Ready s [ms1] [md] → Shapes s (.pkgen md ms1) →
    ∃ t, exec (.pkgen md ms1) s = .next t ∧
      Stores s t md fun _ c x =>
        if c = 0 then
          residueOf s.ring.q
            (negacyclic s.ring.n (residue s ms1 0 1) (residue s ms1 0 0) x + residue s ms1 0 2 x)
        else residue s ms1 0 1 x

/-- ENC (rule R165): flatten of pt·Identity plus bitDecomp of R·PK. -/
def Obligations.EncStoresCiphertext : Prop :=
  ∀ (md ms1 ms2 ms3 : Idx) (s : State), Ready s [ms1, ms2, ms3] [md] → Shapes s (.enc md ms1 ms2 ms3) →
    ∃ t, exec (.enc md ms1 ms2 ms3) s = .next t ∧
      Stores s t md (flatten s.ring.q s.ring.k
        (plus s.ring.q (diagonal (residue s ms1 0 0))
          (bits s.ring.k (product s.ring.q s.ring.n (colsOf s ms2) (residue s ms2) (residue s ms3)))))

/-- DEC (rules R166, R167, R168): each coefficient is what the decoder makes of the k values of (top k rows of C)·SK. -/
def Obligations.DecStoresDecodedElement : Prop :=
  ∀ (md ms1 ms2 : Idx) (s : State), Ready s [ms1, ms2] [md] → Shapes s (.dec md ms1 ms2) →
    ∃ t f, exec (.dec md ms1 ms2) s = .next t ∧ Stores s t md f ∧
      ∀ x < s.ring.n,
        Decodes s.ring.q s.ring.k s.params.decReduce
          (fun j => product s.ring.q s.ring.n (2 * s.ring.k) (residue s ms1) (residue s ms2) j 0 x) (f 0 0 x)

/-- HMC (rule R169): flatten of flatten(g·Identity) times C, the constant on the left. -/
def Obligations.HmcStoresScaledCiphertext : Prop :=
  ∀ (md ms1 ms2 : Idx) (s : State), Ready s [ms1, ms2] [md] → Shapes s (.hmc md ms1 ms2) →
    ∃ t, exec (.hmc md ms1 ms2) s = .next t ∧
      Stores s t md (flatten s.ring.q s.ring.k
        (product s.ring.q s.ring.n (2 * s.ring.k)
          (flatten s.ring.q s.ring.k (diagonal (residue s ms2 0 0))) (residue s ms1)))

/-- HADD (rule R170). -/
def Obligations.HaddStoresSummedCiphertext : Prop :=
  ∀ (md ms1 ms2 : Idx) (s : State), Ready s [ms1, ms2] [md] → Shapes s (.hadd md ms1 ms2) →
    ∃ t, exec (.hadd md ms1 ms2) s = .next t ∧
      Stores s t md (flatten s.ring.q s.ring.k (plus s.ring.q (residue s ms1) (residue s ms2)))

/-- CHKSK (rules R171, R172): CHK says whether coefficient 0 of bitDecomp(PK)·FSK is in the noise band; nothing is
stored. -/
def Obligations.ChkskSetsBandFlag : Prop :=
  ∀ (ms1 ms2 : Idx) (s : State), Ready s [ms1, ms2] [] → Shapes s (.chksk ms1 ms2) →
    ∃ b : Bool, exec (.chksk ms1 ms2) s = .next { s with chk := b, done := true, pend := none } ∧
      (b = true ↔
        InBand s.ring.q
          (product s.ring.q s.ring.n (2 * s.ring.k) (bits s.ring.k (residue s ms1)) (residue s ms2) 0 0 0))

/-! ## Errors, and what every command keeps (60_exceptions.md, 10_state.md) -/

open Classical in
/-- The engine's turn on a pending word makes its checks in the order of rule R205 and raises the first that fails; a
command that passes them runs, and completes unless a word it fetches is unwritten (10_state.md rule R41). -/
def Obligations.ChecksAreMadeInOrder : Prop :=
  ∀ (s : State) (w : Word), s.pend = some w →
    if (rawOf w).opcodeDefined = false then after .engine s = .next (raised s 0x01 (opcOf w) 0)
    else if ((rawOf w).reservedZero && (rawOf w).unusedZero) = false then
      after .engine s = .next (raised s 0x02 (opcOf w) 0)
    else ∃ i : Instr, encode i = w ∧
      if i = .nop then after .engine s = .next { s with done := true, pend := none }
      else if ¬ ValidCfg s.params s.cfg then after .engine s = .next (raised s 0x03 (opcOf w) 0)
      else if ∃ u ∈ usedFields i, ¬ ValidDesc s u.2 then
        ∃ earlier u later, usedFields i = earlier ++ u :: later ∧ (∀ e ∈ earlier, ValidDesc s e.2) ∧
          ¬ ValidDesc s u.2 ∧ after .engine s = .next (raised s 0x04 (opcOf w) u.1)
      else if ¬ Shapes s i then after .engine s = .next (raised s 0x05 (opcOf w) 0)
      else if ∀ j ∈ sources i, Written s j then
        ∃ t, after .engine s = .next t ∧ exec i s = .next t ∧ t.done = true ∧ t.err = s.err ∧ t.pend = none
      else after .engine s = .fault .unwrittenWord

/-- Errors are precise (rule R212): after a turn of the engine that sets ERR, nothing has changed but ERR, CAUSE and
PEND. -/
def Obligations.ErrorsArePrecise : Prop :=
  ∀ s t : State, s.err = false → after .engine s = .next t → t.err = true →
    t = { s with err := true, cause := t.cause, pend := none } ∧ t.cause.extractLsb' 0 8 ≠ 0

/-- A command ends with exactly one of DONE and ERR set (rule R211): of a state in which a command is pending as R30 leaves
it, the invariant says DONE = 0 and ERR = 0. -/
def Obligations.CommandEndsWithDoneOrErr : Prop :=
  ∀ s t : State, EngineInv s → s.pend ≠ none → after .engine s = .next t → t.pend = none ∧ t.err = !t.done

/-- No command writes a descriptor (10_state.md rule R21), nor CFG, CTRL, PMADDR, LASTCMD, HAZ or AERR, nor the model's own
fields. -/
def Obligations.CommandsKeepHostRegisters : Prop :=
  ∀ (i : Instr) (s t : State), exec i s = .next t →
    t = { s with done := t.done, err := t.err, chk := t.chk, cause := t.cause, pm := t.pm, pend := none }

/-- Only a CHKSK that completes writes CHK (10_state.md rule R42), and it leaves PM alone (42_gsw.md rule R172). -/
def Obligations.OnlyChkskWritesChk : Prop :=
  ∀ (i : Instr) (s t : State), exec i s = .next t → t.chk ≠ s.chk →
    (∃ ms1 ms2, i = .chksk ms1 ms2) ∧ t.done = true ∧ t.pm = s.pm

/-- Every word a command changes becomes a canonical residue (20_memory.md rule R64). -/
def Obligations.CommandsStoreCanonicalResidues : Prop :=
  ∀ (i : Instr) (s t : State), s.params.Legal → s.pm.wf = true → exec i s = .next t →
    ∀ a, t.pm.read a = s.pm.read a ∨ ∃ v, t.pm.read a = some v ∧ v.toNat < s.ring.q

/-- The commands that return ciphertexts store only 0 and 1 (42_gsw.md rule R160), and so do FLAT and BDEC (41_gadget.md
rules R141, R143). -/
def Obligations.FlattenedResultsAreBits : Prop :=
  ∀ (md ms1 ms2 ms3 : Idx) (i : Instr),
    i ∈ [.enc md ms1 ms2 ms3, .hmc md ms1 ms2, .hadd md ms1 ms2, .flat md ms1, .bdec md ms1] →
    ∀ s t : State, s.pm.wf = true → s.err = false → exec i s = .next t → t.err = false →
      ∀ r < rowsOf s md, ∀ c < colsOf s md, ∀ x < s.ring.n,
        t.pm.read (addrOf s md r c x) = some 0 ∨ t.pm.read (addrOf s md r c x) = some 1

/-- No command writes words n .. NMAX-1 of a slot (20_memory.md rule R78). -/
def Obligations.CommandsLeaveTailWordsAlone : Prop :=
  ∀ (i : Instr) (s t : State), s.pm.wf = true → exec i s = .next t →
    ∀ slot x, s.ring.n ≤ x → x < s.params.nmax → t.pmWord slot x = s.pmWord slot x

/-- No command reads words n .. NMAX-1 of a slot (20_memory.md rule R78): two states that agree on all else run it alike. -/
def Obligations.TailWordsDoNotInfluenceCommands : Prop :=
  ∀ (i : Instr) (s s' : State), s.pm.wf = true → s'.pm.wf = true → SameButPm s s' → SameElements s s' →
    match exec i s, exec i s' with
    | .next t, .next t'       => SameButPm t t' ∧ SameElements t t'
    | .fault r, .fault r'     => r = r'
    | .refused r, .refused r' => r = r'
    | _, _                    => False

/-! ## The host window (10_state.md, 20_memory.md) -/

/-- A CFG write (rule R26, 60_exceptions.md rule R206): dropped with HAZ while a command is pending; else stored under the
mask, and an invalid value records BAD_CONFIG without replacing an earlier cause. -/
def Obligations.CfgWriteStoresAndChecks : Prop :=
  ∀ (s : State) (v : Word),
    after (hostWrite s 0x010 v) s = .next
      (if s.pend ≠ none then { s with haz := true }
       else if ValidCfg s.params (v &&& 0x00000F3F) then { s with cfg := v &&& 0x00000F3F }
       else { s with cfg := v &&& 0x00000F3F, err := true, cause := if s.err then s.cause else 0x0000FF06 })

/-- A STATUS write clears the flags whose bits are 1, and with ERR also CAUSE; it is accepted while BUSY (rule R28). -/
def Obligations.StatusWriteClearsFlags : Prop :=
  ∀ (s : State) (v : Word),
    after (hostWrite s 0x014 v) s = .next
      { s with done := s.done && !v.getLsbD 1, err := s.err && !v.getLsbD 2, haz := s.haz && !v.getLsbD 3,
               aerr := s.aerr && !v.getLsbD 4, cause := if v.getLsbD 2 then 0 else s.cause }

/-- A CMD write (rule R30): dropped with HAZ while a command is pending, dropped silently while ERR = 1, else accepted; a
CMD read returns LASTCMD, 0 after reset, and changes nothing else. -/
def Obligations.CmdWriteAcceptsOrDrops : Prop :=
  (∀ (s : State) (v : Word),
    after (hostWrite s 0x01C v) s = .next
      (if s.pend ≠ none then { s with haz := true }
       else if s.err = true then s
       else { s with lastCmd := v, done := false, pend := some v }) ∧
    after (hostRead s 0x01C) s = .next { s with reads := s.lastCmd :: s.reads }) ∧
  State.reset.lastCmd = 0

/-- A CTRL write (rule R33), pending command or not: with bit 0 every register takes its reset value and IE is not set from
the value; else bit 1 becomes IE and nothing else changes. CTRL reads as IE in bit 1 and 0 elsewhere. -/
def Obligations.CtrlWriteResetsOrEnables : Prop :=
  ∀ (s : State) (v : Word),
    (∃ t, after (hostWrite s 0x020 v) s = .next t ∧
      if v.getLsbD 0 then
        t = { State.reset with params := s.params, pm := t.pm, schedule := s.schedule, reads := s.reads, draws := t.draws }
      else t = { s with ie := v.getLsbD 1 }) ∧
    after (hostRead s 0x020) s = .next { s with reads := (if s.ie then 2 else 0) :: s.reads }

/-- A PMDATA read (20_memory.md rules R65, R66, R67): dropped while a command is pending, an access error outside PM, else
the word at PMADDR, which advances; an unwritten word is a fault of the model (10_state.md rule R41). -/
def Obligations.PmdataReadRule : Prop :=
  ∀ s : State,
    after (hostRead s 0x028) s =
      if s.pend ≠ none then .next { s with haz := true, reads := 0 :: s.reads }
      else if s.params.slots ≤ portSlot s ∨ 2 ^ s.params.lognMax ≤ portCoef s then
        .next { s with aerr := true, reads := 0 :: s.reads }
      else match s.pmWord (portSlot s) (portCoef s) with
        | some v => .next { s with pmaddr := portNext s, reads := v :: s.reads }
        | none   => .fault .unwrittenWord

/-- A PMDATA write (20_memory.md rules R65, R66, R67): dropped while a command is pending, an access error outside PM, else
the raw word is stored at PMADDR, which advances; every other word keeps its value. -/
def Obligations.PmdataWriteRule : Prop :=
  ∀ (s : State) (v : Word), s.pm.wf = true →
    ∃ t, after (hostWrite s 0x028 v) s = .next t ∧
      if s.pend ≠ none then t = { s with haz := true }
      else if s.params.slots ≤ portSlot s ∨ 2 ^ s.params.lognMax ≤ portCoef s then t = { s with aerr := true }
      else
        t = { s with pm := t.pm, pmaddr := portNext s } ∧
        ∀ a, t.pm.read a = if a = wordAddr s.params (portSlot s) (portCoef s) then some v else s.pm.read a

/-- A PMADDR write stores all 32 bits, pending command or not, and a read returns them (10_state.md rule R34). -/
def Obligations.PmaddrWriteStoresAllBits : Prop :=
  ∀ (s : State) (v : Word),
    after (hostWrite s 0x024 v) s = .next { s with pmaddr := v } ∧
    after (hostRead s 0x024) s = .next { s with reads := s.pmaddr :: s.reads }

/-- A descriptor write stores all 32 bits in the one register, unless a command is pending; a read always returns the
register (10_state.md rule R31). -/
def Obligations.DescriptorWriteStoresOneRegister : Prop :=
  ∀ (s : State) (i : Idx) (v : Word),
    (∃ t, after (hostWrite s (0x040 + 4 * i.toNat) v) s = .next t ∧
      if s.pend ≠ none then t = { s with haz := true }
      else t = { s with md := t.md } ∧ ∀ j : Idx, t.desc j = if j = i then v else s.desc j) ∧
    after (hostRead s (0x040 + 4 * i.toNat)) s = .next { s with reads := s.desc i :: s.reads }

/-- The constant registers read as rules R22 and R23 give them, and a write to them, or to CAUSE, is ignored without a flag
(20_memory.md rule R61). -/
def Obligations.ConstantRegistersRead : Prop :=
  ∀ s : State, s.params.Legal →
    after (hostRead s 0x000) s = .next { s with reads := 0x52475357 :: s.reads } ∧
    after (hostRead s 0x004) s = .next { s with reads := 0x00000001 :: s.reads } ∧
    (∃ w : Word, after (hostRead s 0x008) s = .next { s with reads := w :: s.reads } ∧
      (w.extractLsb' 0 6).toNat = s.params.logqMax ∧ w.extractLsb' 6 2 = 0 ∧
      (w.extractLsb' 8 4).toNat = s.params.lognMax ∧ w.extractLsb' 12 4 = 0 ∧
      (w.extractLsb' 16 5).toNat = 16 ∧ w.extractLsb' 21 11 = 0) ∧
    (∃ w : Word, after (hostRead s 0x00C) s = .next { s with reads := w :: s.reads } ∧
      (w.extractLsb' 0 17).toNat = s.params.slots ∧ w.extractLsb' 17 15 = 0) ∧
    ∀ off ∈ [0x000, 0x004, 0x008, 0x00C, 0x018], ∀ v, after (hostWrite s off v) s = .next s

/-- STATUS reads as its flags (10_state.md rules R25, R27): BUSY while a command is pending, CFGOK as the limits say, bits
[31:7] 0; CFG and CAUSE read as they are held. -/
def Obligations.StatusReadShowsFlags : Prop :=
  ∀ s : State,
    (∃ w : Word, after (hostRead s 0x014) s = .next { s with reads := w :: s.reads } ∧
      (w.getLsbD 0 = true ↔ s.pend ≠ none) ∧ w.getLsbD 1 = s.done ∧ w.getLsbD 2 = s.err ∧ w.getLsbD 3 = s.haz ∧
      w.getLsbD 4 = s.aerr ∧ w.getLsbD 5 = s.chk ∧ (w.getLsbD 6 = true ↔ ValidCfg s.params s.cfg) ∧
      w.extractLsb' 7 25 = 0) ∧
    after (hostRead s 0x010) s = .next { s with reads := s.cfg :: s.reads } ∧
    after (hostRead s 0x018) s = .next { s with reads := s.cause :: s.reads }

/-- The interrupt output (10_state.md rule R37). -/
def Obligations.IrqFollowsDoneAndErr : Prop :=
  ∀ s : State, s.irq = true ↔ s.ie = true ∧ (s.done = true ∨ s.err = true)

/-- An access of another width than 32 bits, at an offset that is not a multiple of 4, or at a reserved offset sets AERR,
reads 0 and changes nothing else (10_state.md rule R36, 20_memory.md rule R61). That this also holds while a command is
pending, where HAZ is not set (rule R68), and that the window is decided by the access's first byte, are the model's
reading, DEDUCED in log 11. -/
def Obligations.BadAccessesSetAerr : Prop :=
  ∀ (s : State) (off width : Nat) (v : Word), off < 0x100 →
    (width ≠ 4 ∨ off % 4 ≠ 0 ∨ (0x02C ≤ off ∧ off < 0x040) ∨ 0x080 ≤ off) →
    after (.host (.read (s.params.hostBase + off) width)) s = .next { s with aerr := true, reads := 0 :: s.reads } ∧
    after (.host (.write (s.params.hostBase + off) width v)) s = .next { s with aerr := true }

/-- A bus access outside the host window is refused by name: it does not reach this engine (the model's choice, log 10; the
window is that of 20_memory.md rule R60). -/
def Obligations.AccessOutsideWindowIsRefused : Prop :=
  ∀ (s : State) (addr width : Nat) (v : Word), (addr < s.params.hostBase ∨ s.params.hostBase + 0x100 ≤ addr) →
    after (.host (.read addr width)) s = .refused .outsideWindow ∧
    after (.host (.write addr width v)) s = .refused .outsideWindow

/-- While a command is pending no host access that leaves it pending changes its operands: CFG, the descriptors, PM, the
command and LASTCMD stay as they are (20_memory.md rule R68). -/
def Obligations.PendingCommandsOperandsAreFrozen : Prop :=
  ∀ (s t : State) (a : Access), s.pend ≠ none → after (.host a) s = .next t → t.pend ≠ none →
    t.cfg = s.cfg ∧ t.md = s.md ∧ t.pm = s.pm ∧ t.pend = s.pend ∧ t.lastCmd = s.lastCmd

/-! ## Reset (10_state.md rule R43, 70_reset_and_hazards.md) -/

/-- Power-on reset: every register at its reset value and every PM word unwritten (rules R43, R231); the state after reset
is such a state. What else State holds is the model's (log 16). -/
def Obligations.PowerOnResetState : Prop :=
  (∀ s : State, ∃ t, after .powerOn s = .next t ∧
    t.cfg = 0 ∧ t.done = false ∧ t.err = false ∧ t.haz = false ∧ t.aerr = false ∧ t.chk = false ∧ t.cause = 0 ∧
    t.lastCmd = 0 ∧ t.ie = false ∧ t.pmaddr = 0 ∧ (∀ i : Idx, t.desc i = 0) ∧ t.pend = none ∧ t.irq = false ∧
    (∀ a, t.pm.read a = none) ∧ t.params = s.params) ∧
  after .powerOn State.reset = .next State.reset ∧ CleanEntry State.reset

/-- A soft reset (rule R233) with nothing pending, or with a pending command that has no defined, valid destination, keeps
PM; otherwise each word of the destination region holds a free value of its own, and every other word is kept. The region
is that of words t < n that PM has (log 6). No clause depends on a free value. -/
def Obligations.SoftResetDrawsTheAbandonedRegion : Prop :=
  ∀ (s t : State) (v : Word), s.pm.wf = true → v.getLsbD 0 = true → after (hostWrite s 0x020 v) s = .next t →
    (s.pend = none → t.pm = s.pm) ∧
    ∀ w, s.pend = some w →
      if opcodeHasDest (opcOf w) = true ∧ ValidDesc s (mdOf w) then
        ∃ num : Nat → Nat,
          (∀ r < rowsOf s (mdOf w), ∀ c < colsOf s (mdOf w), ∀ x < min s.ring.n s.params.nmax,
            s.draws ≤ num (addrOf s (mdOf w) r c x) ∧ num (addrOf s (mdOf w) r c x) < t.draws ∧
            t.pm.read (addrOf s (mdOf w) r c x) = some (Config.freeWord (num (addrOf s (mdOf w) r c x))) ∧
            ∀ r' < rowsOf s (mdOf w), ∀ c' < colsOf s (mdOf w), ∀ x' < min s.ring.n s.params.nmax,
              num (addrOf s (mdOf w) r c x) = num (addrOf s (mdOf w) r' c' x') → r = r' ∧ c = c' ∧ x = x') ∧
          ∀ a, (∀ r < rowsOf s (mdOf w), ∀ c < colsOf s (mdOf w), ∀ x < min s.ring.n s.params.nmax,
              a ≠ addrOf s (mdOf w) r c x) → t.pm.read a = s.pm.read a
      else t.pm = s.pm

/-- After either reset every command but NOP raises NOT_CONFIGURED (rule R232). -/
def Obligations.AfterResetOnlyNopCompletes : Prop :=
  ∀ (s t : State) (v : Word) (i : Instr),
    after .powerOn s = .next t ∨ (v.getLsbD 0 = true ∧ after (hostWrite s 0x020 v) s = .next t) →
    exec i t = .next
      (if i = .nop then { t with done := true, pend := none }
       else { t with cause := 0x00#16 ++ i.opcode ++ 0x03#8, err := true, pend := none })

/-! ## Invariants of every step -/

/-- Every step keeps the invariant: PM canonical and within its bounds, CFG's reserved bits 0, CAUSE and ERR in agreement
with legal codes only, a pending command consistent with LASTCMD, DONE and ERR, and the parameters unchanged. -/
def Obligations.StepKeepsInvariant : Prop :=
  ∀ s t : State, EngineInv s → step s = .next t → EngineInv t ∧ t.params = s.params

/-- The state after power-on reset has the invariant. -/
def Obligations.ResetHasInvariant : Prop := EngineInv State.reset

/-- Whether a pending command ends (70_reset_and_hazards.md rule R243, 93_implementation_defined.md I9). With no event left
nothing moves, whatever is pending (the model's, log 8). A host that only polls STATUS reads BUSY = 1 as often as it likes.
Under weak fairness, from every state with a command pending and along every order of events, there is a point at which
nothing is pending or the run has stopped. If those events are polls and turns of the engine, the loop ends: from
some point on nothing is pending, unless the command reads an unwritten word (10_state.md rule R41). -/
def Obligations.PendingCommandEndsOnlyUnderWeakFairness : Prop :=
  (∀ s : State, s.schedule = [] → step s = .next s) ∧
  (∀ (s : State) (m : Nat), s.pend ≠ none →
    ∃ w : Word, w.getLsbD 0 = true ∧
      runAlong (fun _ => hostRead s 0x014) s m = .next { s with reads := List.replicate m w ++ s.reads }) ∧
  ∀ (σ : Nat → Event) (s : State), WeaklyFair σ s → s.pend ≠ none →
    (∃ m, ¬ EngineEnabled σ s m) ∧
    ((∀ j, σ j = .engine ∨ σ j = hostRead s 0x014) →
      ∃ m, runAlong σ s m = .fault .unwrittenWord ∨ ∀ j, m ≤ j → ∃ t, runAlong σ s j = .next t ∧ t.pend = none)

/-! ## The algebra of the engine (40_ring.md, 41_gadget.md, 42_gsw.md) -/

/-- The multiplier multiplies modulo x^n + 1 and modulo q (40_ring.md rule R111): the product of the two elements'
polynomials and the polynomial of the result differ by a multiple of x^n + 1; and coefficient by coefficient it is the
rule's formula. -/
def Obligations.MultiplierIsTheRingProduct : Prop :=
  ∀ (R : RingCtx) (a b : Elem),
    (Polynomial.X ^ R.n + 1 ∣ poly R a * poly R b - poly R (polyMul R a b)) ∧
    ∀ t < R.n, coeff (polyMul R a b) t = residueOf R.q (negacyclic R.n (coeff a) (coeff b) t)

/-- bitDecompInv undoes bitDecomp on canonical matrices (41_gadget.md rule R148 (a)), and flatten leaves bitDecomp's results
and its own as they are (R148 (d)). -/
def Obligations.GadgetInverseAndFixedPoints : Prop :=
  ∀ (R : RingCtx) (M : Mat), 1 ≤ R.k →
    (∀ i < M.rows, ∀ j < M.cols, ∀ t < R.n, M.coef i j t < R.q →
      (bdinv R (bdec R M)).coef i j t = M.coef i j t) ∧
    (∀ i < M.rows, ∀ c < M.cols * R.k, ∀ t < R.n, (flat R (bdec R M)).coef i c t = (bdec R M).coef i c t) ∧
    (R.k ∣ M.cols → ∀ i < M.rows, ∀ c < M.cols, ∀ t < R.n, (flat R (flat R M)).coef i c t = (flat R M).coef i c t)

/-- For a row v of k columns and an element b, v·powersOf2(b) = flatten(v)·powersOf2(b) = bitDecompInv(v)·b, and for two
elements bitDecomp(a)·powersOf2(b) = a·b (41_gadget.md rule R148 (b), (c)); and flatten does not change the product of a
matrix with a column of stacked powers of two (R148 (e)). -/
def Obligations.FlattenPreservesProductsWithPowers : Prop :=
  ∀ (R : RingCtx), 1 ≤ R.k →
    (∀ (a b : Elem) (t : Nat), t < R.n →
      (mmul R (bdec R (matOf 1 1 fun _ _ => a)) (transpose (pow2 R (matOf 1 1 fun _ _ => b)))).coef 0 0 t =
        coeff (polyMul R a b) t) ∧
    (∀ (v : Mat) (b : Elem) (t : Nat), v.rows = 1 → v.cols = R.k → t < R.n →
      (mmul R v (transpose (pow2 R (matOf 1 1 fun _ _ => b)))).coef 0 0 t =
        coeff (polyMul R ((bdinv R v).get 0 0) b) t) ∧
    ∀ (M P : Mat), P.rows = 1 → M.cols = P.cols * R.k → ∀ i < M.rows, ∀ t < R.n,
      (mmul R (flat R M) (transpose (pow2 R P))).coef i 0 t = (mmul R M (transpose (pow2 R P))).coef i 0 t

/-- The decoder recovers a plaintext coefficient μ from the k level values 2^j·μ + η_j when every |η_j| is below q/4, with
DEC_REDUCE; without it, when besides no level wraps past q (42_gsw.md rule R173 (d)). -/
def Obligations.DecoderToleratesNoiseBelowQuarter : Prop :=
  ∀ (R : RingCtx) (μ : Nat) (η : Nat → Int), 1 ≤ R.k → μ < R.q →
    (∀ j < R.k, 4 * η j < R.q ∧ -(R.q : Int) < 4 * η j) →
    decodeLevels R true (fun j => residueOf R.q (2 ^ j * μ + η j)) R.k 0 = μ ∧
    ((∀ j < R.k, ((μ % 2 ^ (R.k - j) * 2 ^ j : Nat) : Int) + η j < R.q) →
      decodeLevels R false (fun j => residueOf R.q (2 ^ j * μ + η j)) R.k 0 = μ)

/-- Decrypting an encryption under the matching key gives the plaintext back when every coefficient of the noise R·e of the
k top rows is a residue within q/4 of 0 (42_gsw.md rule R173 (a) and (d), one key row, DEC_REDUCE = true). -/
def Obligations.DecryptionUndoesEncryption : Prop :=
  ∀ (R : RingCtx) (t b1 e pt : Elem) (draw : Mat), 1 ≤ R.k → 1 ≤ R.n → draw.rows = 2 * R.k → draw.cols = 1 →
    (∀ x < R.n, coeff pt x < R.q) →
    (∀ j < R.k, ∀ x < R.n,
      4 * coeff (polyMul R (draw.get j 0) e) x < R.q ∨ 3 * R.q < 4 * coeff (polyMul R (draw.get j 0) e) x) →
    ∀ x < R.n,
      (decrypt R true (encrypt R pt draw (publicKey R t b1 e)) (secretKey R t)).coef 0 0 x = coeff pt x
end

