-- ==== Sys2Proof/Laws/Matrix.lean ====
section
/-! SUPPORT. The coefficients of the matrices the ring operations build, the modular reducer, and sums. -/

namespace Sys2Proof.Machine

/-! ## Elements and matrices -/

@[simp] theorem elemOf_length (n : Nat) (f : Nat → Nat) : (elemOf n f).length = n := by simp [elemOf]

/-- Coefficient t of an element given by its coefficients. -/
theorem coeff_elemOf {n t : Nat} (f : Nat → Nat) (h : t < n) : coeff (elemOf n f) t = f t := by
  simp [coeff, elemOf, List.getD, h]

/-- Beyond its degree bound an element has no coefficient. -/
theorem coeff_elemOf_ge {n t : Nat} (f : Nat → Nat) (h : n ≤ t) : coeff (elemOf n f) t = 0 := by
  simp [coeff, elemOf, List.getD, h]

@[simp] theorem matOf_rows (r c : Nat) (f : Nat → Nat → Elem) : (matOf r c f).rows = r := rfl
@[simp] theorem matOf_cols (r c : Nat) (f : Nat → Nat → Elem) : (matOf r c f).cols = c := rfl
@[simp] theorem matOfCoefs_rows (r c n : Nat) (f : Nat → Nat → Nat → Nat) : (matOfCoefs r c n f).rows = r := rfl
@[simp] theorem matOfCoefs_cols (r c n : Nat) (f : Nat → Nat → Nat → Nat) : (matOfCoefs r c n f).cols = c := rfl

/-- The elements of a matrix given by its elements. -/
theorem get_matOf {r c i j : Nat} (f : Nat → Nat → Elem) (hi : i < r) (hj : j < c) : (matOf r c f).get i j = f i j := by
  simp [Mat.get, matOf, List.getD, hi, hj]

/-- The coefficients of a matrix given by its elements. -/
theorem coef_matOf {r c i j : Nat} (f : Nat → Nat → Elem) (t : Nat) (hi : i < r) (hj : j < c) :
    (matOf r c f).coef i j t = coeff (f i j) t := by
  rw [Mat.coef, get_matOf f hi hj]

/-- The elements of a matrix given by its coefficients. -/
theorem get_matOfCoefs {r c n i j : Nat} (f : Nat → Nat → Nat → Nat) (hi : i < r) (hj : j < c) :
    (matOfCoefs r c n f).get i j = elemOf n (f i j) := get_matOf _ hi hj

/-- The coefficients of a matrix given by its coefficients. -/
theorem coef_matOfCoefs {r c n i j t : Nat} (f : Nat → Nat → Nat → Nat) (hi : i < r) (hj : j < c) (ht : t < n) :
    (matOfCoefs r c n f).coef i j t = f i j t := by
  rw [Mat.coef, get_matOfCoefs f hi hj, coeff_elemOf _ ht]

/-! ## The modular reducer (40_ring.md rule R110) -/

theorem RingCtx.q_pos (R : RingCtx) : 0 < R.q := Nat.two_pow_pos _

/-- A reduced value, as an integer, is the residue. -/
theorem modq_cast (R : RingCtx) (v : Int) : ((modq R v : Nat) : Int) = v % (R.q : Int) :=
  Int.toNat_of_nonneg (Int.emod_nonneg _ (by exact_mod_cast R.q_pos.ne'))

/-- A reduced value is canonical. -/
theorem modq_lt (R : RingCtx) (v : Int) : modq R v < R.q := by
  have := modq_cast R v
  have := Int.emod_lt_of_pos v (show (0 : Int) < R.q by exact_mod_cast R.q_pos)
  omega

/-- Reducing a natural number. -/
theorem modq_natCast (R : RingCtx) (v : Nat) : modq R (v : Int) = v % R.q := by
  have := modq_cast R (v : Int)
  omega

/-- A canonical value reduces to itself. -/
theorem modq_of_lt (R : RingCtx) {v : Nat} (h : v < R.q) : modq R (v : Int) = v := by
  rw [modq_natCast, Nat.mod_eq_of_lt h]

/-- Two integers reduce alike when they are congruent modulo q. -/
theorem modq_congr (R : RingCtx) {v w : Int} (h : v % (R.q : Int) = w % (R.q : Int)) : modq R v = modq R w := by
  simp [modq, h]

/-! ## Sums -/

/-- The model's sum is Mathlib's sum over a range. -/
theorem sumTo_eq_sum (m : Nat) (f : Nat → Int) : sumTo m f = ∑ i ∈ Finset.range m, f i := by
  induction m with
  | zero => rfl
  | succ m ih => rw [sumTo, ih, Finset.sum_range_succ]

theorem sumTo_congr {m : Nat} {f g : Nat → Int} (h : ∀ i < m, f i = g i) : sumTo m f = sumTo m g := by
  rw [sumTo_eq_sum, sumTo_eq_sum]
  exact Finset.sum_congr rfl fun i hi => h i (Finset.mem_range.1 hi)

/-! ## Coefficients of the ring operations (40_ring.md rules R111 to R113) -/

theorem coeff_polyMul (R : RingCtx) (a b : Elem) {t : Nat} (h : t < R.n) :
    coeff (polyMul R a b) t = modq R (sumTo R.n fun i =>
      if i ≤ t then (coeff a i : Int) * coeff b (t - i) else -((coeff a i : Int) * coeff b (t + R.n - i))) :=
  coeff_elemOf _ h

theorem coeff_polyAdd (R : RingCtx) (a b : Elem) {t : Nat} (h : t < R.n) :
    coeff (polyAdd R a b) t = modq R ((coeff a t : Int) + coeff b t) := coeff_elemOf _ h

theorem coeff_polySub (R : RingCtx) (a b : Elem) {t : Nat} (h : t < R.n) :
    coeff (polySub R a b) t = modq R ((coeff a t : Int) - coeff b t) := coeff_elemOf _ h

theorem coeff_polyNeg (R : RingCtx) (a : Elem) {t : Nat} (h : t < R.n) :
    coeff (polyNeg R a) t = modq R (-(coeff a t : Int)) := coeff_elemOf _ h

theorem coeff_zeroElem (R : RingCtx) (t : Nat) : coeff (zeroElem R) t = 0 := by
  by_cases h : t < R.n
  · exact coeff_elemOf _ h
  · exact coeff_elemOf_ge _ (by omega)

/-- The ring sum, coefficient by coefficient. -/
theorem coeff_elemSum (R : RingCtx) (m : Nat) (f : Nat → Elem) {t : Nat} (h : t < R.n) :
    coeff (elemSum R m f) t = modq R (sumTo m fun l => (coeff (f l) t : Int)) := by
  induction m with
  | zero => rw [elemSum, coeff_zeroElem]; simp [sumTo, modq]
  | succ m ih =>
    rw [elemSum, coeff_polyAdd R _ _ h, ih, sumTo]
    refine modq_congr R ?_
    rw [modq_cast]
    simp [Int.add_emod]

/-- The matrix product, coefficient by coefficient (rule R113). -/
theorem coef_mmul (R : RingCtx) (A B : Mat) {i j t : Nat} (hi : i < A.rows) (hj : j < B.cols) (ht : t < R.n) :
    (mmul R A B).coef i j t = modq R (sumTo A.cols fun l => (coeff (polyMul R (A.get i l) (B.get l j)) t : Int)) := by
  rw [mmul, coef_matOf _ _ hi hj, coeff_elemSum R _ _ ht]

theorem coef_madd (R : RingCtx) (A B : Mat) {i j t : Nat} (hi : i < A.rows) (hj : j < A.cols) (ht : t < R.n) :
    (madd R A B).coef i j t = modq R ((A.coef i j t : Int) + B.coef i j t) := by
  rw [madd, coef_matOf _ _ hi hj, coeff_polyAdd R _ _ ht]; rfl

theorem coef_msub (R : RingCtx) (A B : Mat) {i j t : Nat} (hi : i < A.rows) (hj : j < A.cols) (ht : t < R.n) :
    (msub R A B).coef i j t = modq R ((A.coef i j t : Int) - B.coef i j t) := by
  rw [msub, coef_matOf _ _ hi hj, coeff_polySub R _ _ ht]; rfl

theorem coef_mneg (R : RingCtx) (A : Mat) {i j t : Nat} (hi : i < A.rows) (hj : j < A.cols) (ht : t < R.n) :
    (mneg R A).coef i j t = modq R (-(A.coef i j t : Int)) := by
  rw [mneg, coef_matOf _ _ hi hj, coeff_polyNeg R _ ht]; rfl

theorem coef_transpose (M : Mat) {i j : Nat} (t : Nat) (hi : i < M.rows) (hj : j < M.cols) :
    (transpose M).coef j i t = M.coef i j t := by
  rw [transpose, coef_matOf _ _ hj hi]; rfl

theorem coef_ident (R : RingCtx) (g : Elem) {i j : Nat} (t : Nat) (hi : i < R.width) (hj : j < R.width) :
    (ident R g).coef i j t = if i = j then coeff g t else 0 := by
  rw [ident, coef_matOf _ _ hi hj]
  split
  · rfl
  · exact coeff_zeroElem R t

/-! ## Coefficients of the gadget functions (41_gadget.md rules R140 to R143) -/

theorem coef_pow2 (R : RingCtx) (M : Mat) {i c t : Nat} (hi : i < M.rows) (hc : c < M.cols * R.k) (ht : t < R.n) :
    (pow2 R M).coef i c t = 2 ^ (c % R.k) * M.coef i (c / R.k) t % R.q := by
  rw [pow2, coef_matOfCoefs _ hi hc ht, ← modq_natCast]; push_cast; rfl

theorem coef_bdec (R : RingCtx) (M : Mat) {i c t : Nat} (hi : i < M.rows) (hc : c < M.cols * R.k) (ht : t < R.n) :
    (bdec R M).coef i c t = bitOf (M.coef i (c / R.k) t) (c % R.k) := by
  rw [bdec, coef_matOfCoefs _ hi hc ht]

theorem coef_bdinv (R : RingCtx) (M : Mat) {i j t : Nat} (hi : i < M.rows) (hj : j < M.cols / R.k) (ht : t < R.n) :
    (bdinv R M).coef i j t = (∑ l ∈ Finset.range R.k, 2 ^ l * M.coef i (j * R.k + l) t) % R.q := by
  rw [bdinv, coef_matOfCoefs _ hi hj ht, sumTo_eq_sum, ← modq_natCast]; push_cast; rfl

theorem coef_flat (R : RingCtx) (M : Mat) {i c t : Nat} (hi : i < M.rows) (hc : c < M.cols / R.k * R.k) (ht : t < R.n) :
    (flat R M).coef i c t =
      bitOf ((∑ l ∈ Finset.range R.k, 2 ^ l * M.coef i (c / R.k * R.k + l) t) % R.q) (c % R.k) := by
  rw [flat, coef_bdec R (bdinv R M) hi hc ht,
    coef_bdinv R M hi (Nat.div_lt_of_lt_mul (by rwa [Nat.mul_comm] at hc)) ht]

theorem bitOf_lt_two (v l : Nat) : bitOf v l < 2 := Nat.mod_lt _ (by decide)

end Sys2Proof.Machine
end

