-- ==== Sys2Proof/Laws/State.lean ====
section
/-! SUPPORT. What each named update of the state does to each field: one lemma per field per update, each true by rfl. -/

namespace Sys2Proof.Machine

variable (s : State)

/-! ## setHaz -/

@[simp] theorem setHaz_params : (s.setHaz).params = s.params := rfl
@[simp] theorem setHaz_cfg : (s.setHaz).cfg = s.cfg := rfl
@[simp] theorem setHaz_done : (s.setHaz).done = s.done := rfl
@[simp] theorem setHaz_err : (s.setHaz).err = s.err := rfl
@[simp] theorem setHaz_haz : (s.setHaz).haz = true := rfl
@[simp] theorem setHaz_aerr : (s.setHaz).aerr = s.aerr := rfl
@[simp] theorem setHaz_chk : (s.setHaz).chk = s.chk := rfl
@[simp] theorem setHaz_cause : (s.setHaz).cause = s.cause := rfl
@[simp] theorem setHaz_lastCmd : (s.setHaz).lastCmd = s.lastCmd := rfl
@[simp] theorem setHaz_ie : (s.setHaz).ie = s.ie := rfl
@[simp] theorem setHaz_pmaddr : (s.setHaz).pmaddr = s.pmaddr := rfl
@[simp] theorem setHaz_md : (s.setHaz).md = s.md := rfl
@[simp] theorem setHaz_pm : (s.setHaz).pm = s.pm := rfl
@[simp] theorem setHaz_pend : (s.setHaz).pend = s.pend := rfl
@[simp] theorem setHaz_schedule : (s.setHaz).schedule = s.schedule := rfl
@[simp] theorem setHaz_reads : (s.setHaz).reads = s.reads := rfl
@[simp] theorem setHaz_draws : (s.setHaz).draws = s.draws := rfl

/-! ## setAerr -/

@[simp] theorem setAerr_params : (s.setAerr).params = s.params := rfl
@[simp] theorem setAerr_cfg : (s.setAerr).cfg = s.cfg := rfl
@[simp] theorem setAerr_done : (s.setAerr).done = s.done := rfl
@[simp] theorem setAerr_err : (s.setAerr).err = s.err := rfl
@[simp] theorem setAerr_haz : (s.setAerr).haz = s.haz := rfl
@[simp] theorem setAerr_aerr : (s.setAerr).aerr = true := rfl
@[simp] theorem setAerr_chk : (s.setAerr).chk = s.chk := rfl
@[simp] theorem setAerr_cause : (s.setAerr).cause = s.cause := rfl
@[simp] theorem setAerr_lastCmd : (s.setAerr).lastCmd = s.lastCmd := rfl
@[simp] theorem setAerr_ie : (s.setAerr).ie = s.ie := rfl
@[simp] theorem setAerr_pmaddr : (s.setAerr).pmaddr = s.pmaddr := rfl
@[simp] theorem setAerr_md : (s.setAerr).md = s.md := rfl
@[simp] theorem setAerr_pm : (s.setAerr).pm = s.pm := rfl
@[simp] theorem setAerr_pend : (s.setAerr).pend = s.pend := rfl
@[simp] theorem setAerr_schedule : (s.setAerr).schedule = s.schedule := rfl
@[simp] theorem setAerr_reads : (s.setAerr).reads = s.reads := rfl
@[simp] theorem setAerr_draws : (s.setAerr).draws = s.draws := rfl

/-! ## recordError -/

@[simp] theorem recordError_params (c : Cause) (o : Opcode) (n : BitVec 3) : (recordError c o n s).params = s.params := rfl
@[simp] theorem recordError_cfg (c : Cause) (o : Opcode) (n : BitVec 3) : (recordError c o n s).cfg = s.cfg := rfl
@[simp] theorem recordError_done (c : Cause) (o : Opcode) (n : BitVec 3) : (recordError c o n s).done = s.done := rfl
@[simp] theorem recordError_err (c : Cause) (o : Opcode) (n : BitVec 3) : (recordError c o n s).err = true := rfl
@[simp] theorem recordError_haz (c : Cause) (o : Opcode) (n : BitVec 3) : (recordError c o n s).haz = s.haz := rfl
@[simp] theorem recordError_aerr (c : Cause) (o : Opcode) (n : BitVec 3) : (recordError c o n s).aerr = s.aerr := rfl
@[simp] theorem recordError_chk (c : Cause) (o : Opcode) (n : BitVec 3) : (recordError c o n s).chk = s.chk := rfl
@[simp] theorem recordError_cause (c : Cause) (o : Opcode) (n : BitVec 3) : (recordError c o n s).cause = if s.err then s.cause else causeWord c.code o n := rfl
@[simp] theorem recordError_lastCmd (c : Cause) (o : Opcode) (n : BitVec 3) : (recordError c o n s).lastCmd = s.lastCmd := rfl
@[simp] theorem recordError_ie (c : Cause) (o : Opcode) (n : BitVec 3) : (recordError c o n s).ie = s.ie := rfl
@[simp] theorem recordError_pmaddr (c : Cause) (o : Opcode) (n : BitVec 3) : (recordError c o n s).pmaddr = s.pmaddr := rfl
@[simp] theorem recordError_md (c : Cause) (o : Opcode) (n : BitVec 3) : (recordError c o n s).md = s.md := rfl
@[simp] theorem recordError_pm (c : Cause) (o : Opcode) (n : BitVec 3) : (recordError c o n s).pm = s.pm := rfl
@[simp] theorem recordError_pend (c : Cause) (o : Opcode) (n : BitVec 3) : (recordError c o n s).pend = s.pend := rfl
@[simp] theorem recordError_schedule (c : Cause) (o : Opcode) (n : BitVec 3) : (recordError c o n s).schedule = s.schedule := rfl
@[simp] theorem recordError_reads (c : Cause) (o : Opcode) (n : BitVec 3) : (recordError c o n s).reads = s.reads := rfl
@[simp] theorem recordError_draws (c : Cause) (o : Opcode) (n : BitVec 3) : (recordError c o n s).draws = s.draws := rfl

/-! ## raiseError -/

@[simp] theorem raiseError_params (c : Cause) (o : Opcode) (n : BitVec 3) : (raiseError c o n s).params = s.params := rfl
@[simp] theorem raiseError_cfg (c : Cause) (o : Opcode) (n : BitVec 3) : (raiseError c o n s).cfg = s.cfg := rfl
@[simp] theorem raiseError_done (c : Cause) (o : Opcode) (n : BitVec 3) : (raiseError c o n s).done = s.done := rfl
@[simp] theorem raiseError_err (c : Cause) (o : Opcode) (n : BitVec 3) : (raiseError c o n s).err = true := rfl
@[simp] theorem raiseError_haz (c : Cause) (o : Opcode) (n : BitVec 3) : (raiseError c o n s).haz = s.haz := rfl
@[simp] theorem raiseError_aerr (c : Cause) (o : Opcode) (n : BitVec 3) : (raiseError c o n s).aerr = s.aerr := rfl
@[simp] theorem raiseError_chk (c : Cause) (o : Opcode) (n : BitVec 3) : (raiseError c o n s).chk = s.chk := rfl
@[simp] theorem raiseError_cause (c : Cause) (o : Opcode) (n : BitVec 3) : (raiseError c o n s).cause = if s.err then s.cause else causeWord c.code o n := rfl
@[simp] theorem raiseError_lastCmd (c : Cause) (o : Opcode) (n : BitVec 3) : (raiseError c o n s).lastCmd = s.lastCmd := rfl
@[simp] theorem raiseError_ie (c : Cause) (o : Opcode) (n : BitVec 3) : (raiseError c o n s).ie = s.ie := rfl
@[simp] theorem raiseError_pmaddr (c : Cause) (o : Opcode) (n : BitVec 3) : (raiseError c o n s).pmaddr = s.pmaddr := rfl
@[simp] theorem raiseError_md (c : Cause) (o : Opcode) (n : BitVec 3) : (raiseError c o n s).md = s.md := rfl
@[simp] theorem raiseError_pm (c : Cause) (o : Opcode) (n : BitVec 3) : (raiseError c o n s).pm = s.pm := rfl
@[simp] theorem raiseError_pend (c : Cause) (o : Opcode) (n : BitVec 3) : (raiseError c o n s).pend = none := rfl
@[simp] theorem raiseError_schedule (c : Cause) (o : Opcode) (n : BitVec 3) : (raiseError c o n s).schedule = s.schedule := rfl
@[simp] theorem raiseError_reads (c : Cause) (o : Opcode) (n : BitVec 3) : (raiseError c o n s).reads = s.reads := rfl
@[simp] theorem raiseError_draws (c : Cause) (o : Opcode) (n : BitVec 3) : (raiseError c o n s).draws = s.draws := rfl

/-! ## clearError -/

@[simp] theorem clearError_params : (clearError s).params = s.params := rfl
@[simp] theorem clearError_cfg : (clearError s).cfg = s.cfg := rfl
@[simp] theorem clearError_done : (clearError s).done = s.done := rfl
@[simp] theorem clearError_err : (clearError s).err = false := rfl
@[simp] theorem clearError_haz : (clearError s).haz = s.haz := rfl
@[simp] theorem clearError_aerr : (clearError s).aerr = s.aerr := rfl
@[simp] theorem clearError_chk : (clearError s).chk = s.chk := rfl
@[simp] theorem clearError_cause : (clearError s).cause = 0 := rfl
@[simp] theorem clearError_lastCmd : (clearError s).lastCmd = s.lastCmd := rfl
@[simp] theorem clearError_ie : (clearError s).ie = s.ie := rfl
@[simp] theorem clearError_pmaddr : (clearError s).pmaddr = s.pmaddr := rfl
@[simp] theorem clearError_md : (clearError s).md = s.md := rfl
@[simp] theorem clearError_pm : (clearError s).pm = s.pm := rfl
@[simp] theorem clearError_pend : (clearError s).pend = s.pend := rfl
@[simp] theorem clearError_schedule : (clearError s).schedule = s.schedule := rfl
@[simp] theorem clearError_reads : (clearError s).reads = s.reads := rfl
@[simp] theorem clearError_draws : (clearError s).draws = s.draws := rfl

/-! ## acceptCommand -/

@[simp] theorem acceptCommand_params (w : Word) : (acceptCommand w s).params = s.params := rfl
@[simp] theorem acceptCommand_cfg (w : Word) : (acceptCommand w s).cfg = s.cfg := rfl
@[simp] theorem acceptCommand_done (w : Word) : (acceptCommand w s).done = false := rfl
@[simp] theorem acceptCommand_err (w : Word) : (acceptCommand w s).err = s.err := rfl
@[simp] theorem acceptCommand_haz (w : Word) : (acceptCommand w s).haz = s.haz := rfl
@[simp] theorem acceptCommand_aerr (w : Word) : (acceptCommand w s).aerr = s.aerr := rfl
@[simp] theorem acceptCommand_chk (w : Word) : (acceptCommand w s).chk = s.chk := rfl
@[simp] theorem acceptCommand_cause (w : Word) : (acceptCommand w s).cause = s.cause := rfl
@[simp] theorem acceptCommand_lastCmd (w : Word) : (acceptCommand w s).lastCmd = w := rfl
@[simp] theorem acceptCommand_ie (w : Word) : (acceptCommand w s).ie = s.ie := rfl
@[simp] theorem acceptCommand_pmaddr (w : Word) : (acceptCommand w s).pmaddr = s.pmaddr := rfl
@[simp] theorem acceptCommand_md (w : Word) : (acceptCommand w s).md = s.md := rfl
@[simp] theorem acceptCommand_pm (w : Word) : (acceptCommand w s).pm = s.pm := rfl
@[simp] theorem acceptCommand_pend (w : Word) : (acceptCommand w s).pend = some w := rfl
@[simp] theorem acceptCommand_schedule (w : Word) : (acceptCommand w s).schedule = s.schedule := rfl
@[simp] theorem acceptCommand_reads (w : Word) : (acceptCommand w s).reads = s.reads := rfl
@[simp] theorem acceptCommand_draws (w : Word) : (acceptCommand w s).draws = s.draws := rfl

/-! ## complete -/

@[simp] theorem complete_params : (complete s).params = s.params := rfl
@[simp] theorem complete_cfg : (complete s).cfg = s.cfg := rfl
@[simp] theorem complete_done : (complete s).done = true := rfl
@[simp] theorem complete_err : (complete s).err = s.err := rfl
@[simp] theorem complete_haz : (complete s).haz = s.haz := rfl
@[simp] theorem complete_aerr : (complete s).aerr = s.aerr := rfl
@[simp] theorem complete_chk : (complete s).chk = s.chk := rfl
@[simp] theorem complete_cause : (complete s).cause = s.cause := rfl
@[simp] theorem complete_lastCmd : (complete s).lastCmd = s.lastCmd := rfl
@[simp] theorem complete_ie : (complete s).ie = s.ie := rfl
@[simp] theorem complete_pmaddr : (complete s).pmaddr = s.pmaddr := rfl
@[simp] theorem complete_md : (complete s).md = s.md := rfl
@[simp] theorem complete_pm : (complete s).pm = s.pm := rfl
@[simp] theorem complete_pend : (complete s).pend = none := rfl
@[simp] theorem complete_schedule : (complete s).schedule = s.schedule := rfl
@[simp] theorem complete_reads : (complete s).reads = s.reads := rfl
@[simp] theorem complete_draws : (complete s).draws = s.draws := rfl

/-! ## store -/

@[simp] theorem store_params (d : Word) (M : Mat) : (store d M s).params = s.params := rfl
@[simp] theorem store_cfg (d : Word) (M : Mat) : (store d M s).cfg = s.cfg := rfl
@[simp] theorem store_done (d : Word) (M : Mat) : (store d M s).done = s.done := rfl
@[simp] theorem store_err (d : Word) (M : Mat) : (store d M s).err = s.err := rfl
@[simp] theorem store_haz (d : Word) (M : Mat) : (store d M s).haz = s.haz := rfl
@[simp] theorem store_aerr (d : Word) (M : Mat) : (store d M s).aerr = s.aerr := rfl
@[simp] theorem store_chk (d : Word) (M : Mat) : (store d M s).chk = s.chk := rfl
@[simp] theorem store_cause (d : Word) (M : Mat) : (store d M s).cause = s.cause := rfl
@[simp] theorem store_lastCmd (d : Word) (M : Mat) : (store d M s).lastCmd = s.lastCmd := rfl
@[simp] theorem store_ie (d : Word) (M : Mat) : (store d M s).ie = s.ie := rfl
@[simp] theorem store_pmaddr (d : Word) (M : Mat) : (store d M s).pmaddr = s.pmaddr := rfl
@[simp] theorem store_md (d : Word) (M : Mat) : (store d M s).md = s.md := rfl
@[simp] theorem store_pm (d : Word) (M : Mat) : (store d M s).pm = s.pm.writeAll (storeWords s d M) := rfl
@[simp] theorem store_pend (d : Word) (M : Mat) : (store d M s).pend = s.pend := rfl
@[simp] theorem store_schedule (d : Word) (M : Mat) : (store d M s).schedule = s.schedule := rfl
@[simp] theorem store_reads (d : Word) (M : Mat) : (store d M s).reads = s.reads := rfl
@[simp] theorem store_draws (d : Word) (M : Mat) : (store d M s).draws = s.draws := rfl

/-! ## advance -/

@[simp] theorem advance_params : (advance s).params = s.params := rfl
@[simp] theorem advance_cfg : (advance s).cfg = s.cfg := rfl
@[simp] theorem advance_done : (advance s).done = s.done := rfl
@[simp] theorem advance_err : (advance s).err = s.err := rfl
@[simp] theorem advance_haz : (advance s).haz = s.haz := rfl
@[simp] theorem advance_aerr : (advance s).aerr = s.aerr := rfl
@[simp] theorem advance_chk : (advance s).chk = s.chk := rfl
@[simp] theorem advance_cause : (advance s).cause = s.cause := rfl
@[simp] theorem advance_lastCmd : (advance s).lastCmd = s.lastCmd := rfl
@[simp] theorem advance_ie : (advance s).ie = s.ie := rfl
@[simp] theorem advance_pmaddr : (advance s).pmaddr = pmNext s := rfl
@[simp] theorem advance_md : (advance s).md = s.md := rfl
@[simp] theorem advance_pm : (advance s).pm = s.pm := rfl
@[simp] theorem advance_pend : (advance s).pend = s.pend := rfl
@[simp] theorem advance_schedule : (advance s).schedule = s.schedule := rfl
@[simp] theorem advance_reads : (advance s).reads = s.reads := rfl
@[simp] theorem advance_draws : (advance s).draws = s.draws := rfl

/-! ## deliver -/

@[simp] theorem deliver_params (w : Word) : (deliver w s).params = s.params := rfl
@[simp] theorem deliver_cfg (w : Word) : (deliver w s).cfg = s.cfg := rfl
@[simp] theorem deliver_done (w : Word) : (deliver w s).done = s.done := rfl
@[simp] theorem deliver_err (w : Word) : (deliver w s).err = s.err := rfl
@[simp] theorem deliver_haz (w : Word) : (deliver w s).haz = s.haz := rfl
@[simp] theorem deliver_aerr (w : Word) : (deliver w s).aerr = s.aerr := rfl
@[simp] theorem deliver_chk (w : Word) : (deliver w s).chk = s.chk := rfl
@[simp] theorem deliver_cause (w : Word) : (deliver w s).cause = s.cause := rfl
@[simp] theorem deliver_lastCmd (w : Word) : (deliver w s).lastCmd = s.lastCmd := rfl
@[simp] theorem deliver_ie (w : Word) : (deliver w s).ie = s.ie := rfl
@[simp] theorem deliver_pmaddr (w : Word) : (deliver w s).pmaddr = s.pmaddr := rfl
@[simp] theorem deliver_md (w : Word) : (deliver w s).md = s.md := rfl
@[simp] theorem deliver_pm (w : Word) : (deliver w s).pm = s.pm := rfl
@[simp] theorem deliver_pend (w : Word) : (deliver w s).pend = s.pend := rfl
@[simp] theorem deliver_schedule (w : Word) : (deliver w s).schedule = s.schedule := rfl
@[simp] theorem deliver_reads (w : Word) : (deliver w s).reads = w :: s.reads := rfl
@[simp] theorem deliver_draws (w : Word) : (deliver w s).draws = s.draws := rfl

/-! ## resetRegisters -/

@[simp] theorem resetRegisters_params : (resetRegisters s).params = s.params := rfl
@[simp] theorem resetRegisters_cfg : (resetRegisters s).cfg = 0 := rfl
@[simp] theorem resetRegisters_done : (resetRegisters s).done = false := rfl
@[simp] theorem resetRegisters_err : (resetRegisters s).err = false := rfl
@[simp] theorem resetRegisters_haz : (resetRegisters s).haz = false := rfl
@[simp] theorem resetRegisters_aerr : (resetRegisters s).aerr = false := rfl
@[simp] theorem resetRegisters_chk : (resetRegisters s).chk = false := rfl
@[simp] theorem resetRegisters_cause : (resetRegisters s).cause = 0 := rfl
@[simp] theorem resetRegisters_lastCmd : (resetRegisters s).lastCmd = 0 := rfl
@[simp] theorem resetRegisters_ie : (resetRegisters s).ie = false := rfl
@[simp] theorem resetRegisters_pmaddr : (resetRegisters s).pmaddr = 0 := rfl
@[simp] theorem resetRegisters_md : (resetRegisters s).md = Vector.replicate 16 0 := rfl
@[simp] theorem resetRegisters_pm : (resetRegisters s).pm = s.pm := rfl
@[simp] theorem resetRegisters_pend : (resetRegisters s).pend = none := rfl
@[simp] theorem resetRegisters_schedule : (resetRegisters s).schedule = s.schedule := rfl
@[simp] theorem resetRegisters_reads : (resetRegisters s).reads = s.reads := rfl
@[simp] theorem resetRegisters_draws : (resetRegisters s).draws = s.draws := rfl

/-! ## powerOnReset -/

@[simp] theorem powerOnReset_params : (powerOnReset s).params = s.params := rfl
@[simp] theorem powerOnReset_cfg : (powerOnReset s).cfg = 0 := rfl
@[simp] theorem powerOnReset_done : (powerOnReset s).done = false := rfl
@[simp] theorem powerOnReset_err : (powerOnReset s).err = false := rfl
@[simp] theorem powerOnReset_haz : (powerOnReset s).haz = false := rfl
@[simp] theorem powerOnReset_aerr : (powerOnReset s).aerr = false := rfl
@[simp] theorem powerOnReset_chk : (powerOnReset s).chk = false := rfl
@[simp] theorem powerOnReset_cause : (powerOnReset s).cause = 0 := rfl
@[simp] theorem powerOnReset_lastCmd : (powerOnReset s).lastCmd = 0 := rfl
@[simp] theorem powerOnReset_ie : (powerOnReset s).ie = false := rfl
@[simp] theorem powerOnReset_pmaddr : (powerOnReset s).pmaddr = 0 := rfl
@[simp] theorem powerOnReset_md : (powerOnReset s).md = Vector.replicate 16 0 := rfl
@[simp] theorem powerOnReset_pm : (powerOnReset s).pm = ⟨[]⟩ := rfl
@[simp] theorem powerOnReset_pend : (powerOnReset s).pend = none := rfl
@[simp] theorem powerOnReset_schedule : (powerOnReset s).schedule = s.schedule := rfl
@[simp] theorem powerOnReset_reads : (powerOnReset s).reads = s.reads := rfl
@[simp] theorem powerOnReset_draws : (powerOnReset s).draws = s.draws := rfl

/-! ## placeCommand -/

@[simp] theorem placeCommand_params (w : Word) : (placeCommand w s).params = s.params := rfl
@[simp] theorem placeCommand_cfg (w : Word) : (placeCommand w s).cfg = s.cfg := rfl
@[simp] theorem placeCommand_done (w : Word) : (placeCommand w s).done = false := rfl
@[simp] theorem placeCommand_err (w : Word) : (placeCommand w s).err = s.err := rfl
@[simp] theorem placeCommand_haz (w : Word) : (placeCommand w s).haz = s.haz := rfl
@[simp] theorem placeCommand_aerr (w : Word) : (placeCommand w s).aerr = s.aerr := rfl
@[simp] theorem placeCommand_chk (w : Word) : (placeCommand w s).chk = s.chk := rfl
@[simp] theorem placeCommand_cause (w : Word) : (placeCommand w s).cause = s.cause := rfl
@[simp] theorem placeCommand_lastCmd (w : Word) : (placeCommand w s).lastCmd = w := rfl
@[simp] theorem placeCommand_ie (w : Word) : (placeCommand w s).ie = s.ie := rfl
@[simp] theorem placeCommand_pmaddr (w : Word) : (placeCommand w s).pmaddr = s.pmaddr := rfl
@[simp] theorem placeCommand_md (w : Word) : (placeCommand w s).md = s.md := rfl
@[simp] theorem placeCommand_pm (w : Word) : (placeCommand w s).pm = s.pm := rfl
@[simp] theorem placeCommand_pend (w : Word) : (placeCommand w s).pend = some w := rfl
@[simp] theorem placeCommand_schedule (w : Word) : (placeCommand w s).schedule = .engine :: s.schedule := rfl
@[simp] theorem placeCommand_reads (w : Word) : (placeCommand w s).reads = s.reads := rfl
@[simp] theorem placeCommand_draws (w : Word) : (placeCommand w s).draws = s.draws := rfl

end Sys2Proof.Machine
end

