-- ==== Sys2Proof/Laws/Memory.lean ====
section
/-! SUPPORT. PM as a memory: a read after a write, every other word left alone, and the canonical form kept by every
operation. -/

namespace Sys2Proof.Machine

/-! ## Lists of cells -/

/-- A bound below the head of a rising list. -/
theorem risingFrom_cons (b : Option Nat) (c : Nat × Word) (rest : List (Nat × Word)) :
    risingFrom b (c :: rest) = true ↔ (∀ x, b = some x → x < c.1) ∧ risingFrom (some c.1) rest = true := by
  obtain ⟨a, v⟩ := c
  cases b <;> simp [risingFrom]

/-- A rising list keeps rising from a lower bound. -/
theorem risingFrom_weaken {b : Nat} {cs : List (Nat × Word)} (h : risingFrom (some b) cs = true) :
    risingFrom none cs = true := by
  cases cs with
  | nil => rfl
  | cons c rest => rw [risingFrom_cons] at h ⊢; exact ⟨by simp, h.2⟩

theorem risingFrom_mono {b b' : Nat} {cs : List (Nat × Word)} (hb : b' ≤ b) (h : risingFrom (some b) cs = true) :
    risingFrom (some b') cs = true := by
  cases cs with
  | nil => rfl
  | cons c rest =>
    rw [risingFrom_cons] at h ⊢
    refine ⟨fun x hx => ?_, h.2⟩
    have := h.1 b rfl
    cases hx
    omega

/-- Below its first address a rising list reads as unwritten. -/
theorem readCells_below {b a : Nat} {cs : List (Nat × Word)} (h : risingFrom (some b) cs = true) (ha : a ≤ b) :
    readCells cs a = none := by
  cases cs with
  | nil => rfl
  | cons c rest =>
    have hlt := ((risingFrom_cons _ _ _).1 h).1 b rfl
    obtain ⟨x, v⟩ := c
    simp only [readCells] at *
    rw [if_neg (by omega), if_pos (by omega)]

/-- A write keeps a list of cells rising from a bound below the address. -/
theorem writeCells_rising {b : Option Nat} {cs : List (Nat × Word)} {a : Nat} (v : Word)
    (h : risingFrom b cs = true) (ha : ∀ x, b = some x → x < a) : risingFrom b (writeCells cs a v) = true := by
  induction cs generalizing b with
  | nil => simpa [writeCells, risingFrom_cons, risingFrom] using ha
  | cons c rest ih =>
    obtain ⟨x, u⟩ := c
    obtain ⟨h1, h2⟩ := (risingFrom_cons _ _ _).1 h
    simp only [writeCells]
    split
    · rename_i hlt
      simp only [risingFrom_cons]
      exact ⟨ha, by simpa using hlt, h2⟩
    · split
      · rename_i heq
        subst heq
        exact (risingFrom_cons _ _ _).2 ⟨ha, h2⟩
      · exact (risingFrom_cons _ _ _).2 ⟨h1, ih h2 (by simp; omega)⟩

/-- What a rising list reads after a write. -/
theorem readCells_writeCells {b : Option Nat} {cs : List (Nat × Word)} (a a' : Nat) (v : Word)
    (h : risingFrom b cs = true) :
    readCells (writeCells cs a v) a' = if a' = a then some v else readCells cs a' := by
  induction cs generalizing b with
  | nil => simp [writeCells, readCells]
  | cons c rest ih =>
    obtain ⟨x, u⟩ := c
    obtain ⟨-, h2⟩ := (risingFrom_cons _ _ _).1 h
    have ih' := ih h2
    simp only [writeCells]
    split
    · simp only [readCells]
      split
      · rfl
      · split
        · rw [if_neg (by omega), if_pos (by omega)]
        · rfl
    · split
      · rename_i hx
        subst hx
        simp only [readCells]
        split <;> rfl
      · simp only [readCells, ih']
        by_cases ha : a' = a
        · subst ha
          rw [if_neg (by assumption), if_neg (by omega), if_pos rfl, if_pos rfl]
        · simp [ha]

/-! ## Memories -/

/-- A read after a write to the same address gives the value written. -/
theorem Memory.read_write_same {m : Memory} (h : m.wf = true) (a : Nat) (v : Word) : (m.write a v).read a = some v := by
  simp [Memory.read, Memory.write, readCells_writeCells a a v h]

/-- A write leaves every other address alone. -/
theorem Memory.read_write_other {m : Memory} (h : m.wf = true) {a a' : Nat} (v : Word) (ne : a' ≠ a) :
    (m.write a v).read a' = m.read a' := by
  simp [Memory.read, Memory.write, readCells_writeCells a a' v h, ne]

/-- A write keeps the canonical form. -/
theorem Memory.write_wf {m : Memory} (h : m.wf = true) (a : Nat) (v : Word) : (m.write a v).wf = true :=
  writeCells_rising v h (by simp)

@[simp] theorem Memory.writeAll_nil (m : Memory) : m.writeAll [] = m := rfl

@[simp] theorem Memory.writeAll_cons (m : Memory) (w : Nat × Word) (ws : List (Nat × Word)) :
    m.writeAll (w :: ws) = (m.write w.1 w.2).writeAll ws := rfl

/-- Writing a list of words keeps the canonical form. -/
theorem Memory.writeAll_wf {m : Memory} (h : m.wf = true) (ws : List (Nat × Word)) : (m.writeAll ws).wf = true := by
  induction ws generalizing m with
  | nil => exact h
  | cons w ws ih => exact ih (Memory.write_wf h _ _)

/-- An address no word of the list has reads as before. -/
theorem Memory.read_writeAll_other {m : Memory} (h : m.wf = true) {ws : List (Nat × Word)} {a : Nat}
    (ha : ∀ w ∈ ws, w.1 ≠ a) : (m.writeAll ws).read a = m.read a := by
  induction ws generalizing m with
  | nil => rfl
  | cons w ws ih =>
    rw [Memory.writeAll_cons, ih (Memory.write_wf h _ _) fun x hx => ha x (List.mem_cons_of_mem _ hx)]
    exact Memory.read_write_other h _ (ha w List.mem_cons_self).symm

/-- An address to which the list writes one value only reads as that value. -/
theorem Memory.read_writeAll_mem {m : Memory} (h : m.wf = true) {ws : List (Nat × Word)} {a : Nat} {v : Word}
    (hmem : (a, v) ∈ ws) (hone : ∀ w ∈ ws, w.1 = a → w.2 = v) : (m.writeAll ws).read a = some v := by
  induction ws generalizing m with
  | nil => cases hmem
  | cons w ws ih =>
    have hrest : ∀ x ∈ ws, x.1 = a → x.2 = v := fun x hx => hone x (List.mem_cons_of_mem _ hx)
    rw [Memory.writeAll_cons]
    by_cases hin : (a, v) ∈ ws
    · exact ih (Memory.write_wf h _ _) hin hrest
    · have hw : w = (a, v) := by
        rcases List.mem_cons.1 hmem with e | e
        · exact e.symm
        · exact absurd e hin
      subst hw
      rw [Memory.read_writeAll_other (Memory.write_wf h _ _) fun x hx hxa => hin ?_]
      · exact Memory.read_write_same h a v
      · obtain ⟨b, u⟩ := x
        have hu := hrest _ hx hxa
        simp only at hxa hu
        subst hxa hu
        exact hx

/-- What a list of writes can do at an address: nothing, or one of its values. -/
theorem Memory.read_writeAll {m : Memory} (h : m.wf = true) (ws : List (Nat × Word)) (a : Nat) :
    (m.writeAll ws).read a = m.read a ∨ ∃ w ∈ ws, w.1 = a ∧ (m.writeAll ws).read a = some w.2 := by
  induction ws generalizing m with
  | nil => exact .inl rfl
  | cons w ws ih =>
    rcases ih (Memory.write_wf h w.1 w.2) with hr | ⟨x, hx, hxa, hxr⟩
    · by_cases hwa : w.1 = a
      · refine .inr ⟨w, List.mem_cons_self, hwa, ?_⟩
        rw [Memory.writeAll_cons, hr, ← hwa]
        exact Memory.read_write_same h _ _
      · refine .inl ?_
        rw [Memory.writeAll_cons, hr]
        exact Memory.read_write_other h _ (Ne.symm hwa)
    · exact .inr ⟨x, List.mem_cons_of_mem _ hx, hxa, hxr⟩

/-- Every address of a written memory was listed before or is one of those written. -/
theorem Memory.mem_write {m : Memory} {a : Nat} {v : Word} {c : Nat × Word} (h : c ∈ (m.write a v).cells) :
    c.1 = a ∨ c ∈ m.cells := by
  obtain ⟨cs⟩ := m
  simp only [Memory.write] at h ⊢
  induction cs with
  | nil => simp only [writeCells, List.mem_singleton] at h; exact .inl (by rw [h])
  | cons d rest ih =>
    obtain ⟨x, u⟩ := d
    simp only [writeCells] at h
    split at h
    · rcases List.mem_cons.1 h with e | e
      · exact .inl (by rw [e])
      · exact .inr e
    · split at h
      · rcases List.mem_cons.1 h with e | e
        · exact .inl (by rw [e])
        · exact .inr (List.mem_cons_of_mem _ e)
      · rcases List.mem_cons.1 h with e | e
        · exact .inr (by rw [e]; exact List.mem_cons_self)
        · exact (ih e).imp id (List.mem_cons_of_mem _)

theorem Memory.mem_writeAll {m : Memory} {ws : List (Nat × Word)} {c : Nat × Word} (h : c ∈ (m.writeAll ws).cells) :
    (∃ w ∈ ws, w.1 = c.1) ∨ c ∈ m.cells := by
  induction ws generalizing m with
  | nil => exact .inr h
  | cons w ws ih =>
    rcases ih h with ⟨x, hx, e⟩ | h'
    · exact .inl ⟨x, List.mem_cons_of_mem _ hx, e⟩
    · rcases Memory.mem_write h' with e | e
      · exact .inl ⟨w, List.mem_cons_self, e.symm⟩
      · exact .inr e

end Sys2Proof.Machine
end

