-- ==== Sys2Proof/Laws/Operands.lean ====
section
/-! SUPPORT. What Fetch, Store and the checks of a command can do (20_memory.md rules R63, R64; 60_exceptions.md rule
R205), said once. -/

namespace Sys2Proof.Machine

/-! ## Addresses -/

/-- In a valid ring n is at most NMAX. -/
theorem ring_n_le_nmax {s : State} (h : s.cfgOk = true) : s.ring.n ≤ s.params.nmax := by
  simp only [State.cfgOk, cfgValid, Bool.and_eq_true, decide_eq_true_eq] at h
  exact Nat.pow_le_pow_right (by decide) h.2

/-- In a valid ring k is at least 1 and at most LOGQ_MAX. -/
theorem ring_k_bounds {s : State} (h : s.cfgOk = true) : 1 ≤ s.ring.k ∧ s.ring.k ≤ s.params.logqMax := by
  simp only [State.cfgOk, cfgValid, Bool.and_eq_true, decide_eq_true_eq] at h
  exact ⟨h.1.1.1, h.1.1.2⟩

/-- In a legal implementation a canonical coefficient fits a PM word. -/
theorem ring_q_le {s : State} (hp : s.params.Legal) (h : s.cfgOk = true) : s.ring.q ≤ 2 ^ 32 :=
  Nat.pow_le_pow_right (by decide) ((ring_k_bounds h).2.trans hp.2.1)

/-- Different words of PM have different addresses. -/
theorem wordAddr_inj {p : Config.Params} {a b x y : Nat} (hx : x < p.nmax) (hy : y < p.nmax)
    (h : wordAddr p a x = wordAddr p b y) : a = b ∧ x = y := by
  have ha : (a * p.nmax + x) / p.nmax = a := by
    rw [Nat.mul_comm, Nat.mul_add_div (by omega), Nat.div_eq_of_lt hx, Nat.add_zero]
  have hb : (b * p.nmax + y) / p.nmax = b := by
    rw [Nat.mul_comm, Nat.mul_add_div (by omega), Nat.div_eq_of_lt hy, Nat.add_zero]
  simp only [wordAddr] at h
  have : a = b := by rw [← ha, ← hb, h]
  subst this
  exact ⟨rfl, by omega⟩

/-- Different elements of a matrix lie in different slots. -/
theorem descSlot_inj {d : Word} {r c r' c' : Nat} (hc : c < descCols d) (hc' : c' < descCols d)
    (h : descSlot d r c = descSlot d r' c') : r = r' ∧ c = c' := by
  have h1 : (r * descCols d + c) / descCols d = r := by
    rw [Nat.mul_comm, Nat.mul_add_div (by omega), Nat.div_eq_of_lt hc, Nat.add_zero]
  have h2 : (r' * descCols d + c') / descCols d = r' := by
    rw [Nat.mul_comm, Nat.mul_add_div (by omega), Nat.div_eq_of_lt hc', Nat.add_zero]
  simp only [descSlot] at h
  have he : r * descCols d + c = r' * descCols d + c' := by omega
  have : r = r' := by rw [← h1, ← h2, he]
  subst this
  exact ⟨rfl, by omega⟩

/-- The slots of a valid descriptor's matrix exist. -/
theorem descSlot_lt {p : Config.Params} {d : Word} {r c : Nat} (h : descValid p d = true) (hr : r < descRows d)
    (hc : c < descCols d) : descSlot d r c < p.slots := by
  simp only [descValid, Bool.and_eq_true, decide_eq_true_eq] at h
  have : (r + 1) * descCols d ≤ descRows d * descCols d := Nat.mul_le_mul_right _ hr
  rw [Nat.add_mul, Nat.one_mul] at this
  simp only [descSlot]
  omega

/-! ## Fetch -/

theorem fetchable_iff (s : State) (d : Word) :
    fetchable s d = true ↔
      ∀ r < descRows d, ∀ c < descCols d, ∀ t < s.ring.n, (s.pmWord (descSlot d r c) t).isSome = true := by
  simp [fetchable]

/-- A fetch answers the operand or faults, and nothing else (rule R63, 10_state.md rule R41). -/
theorem fetch_cases (s : State) (d : Word) :
    (fetchable s d = true ∧ fetch s d = .ok (operand s d)) ∨
      (fetchable s d = false ∧ fetch s d = .error .unwrittenWord) := by
  unfold fetch
  cases h : fetchable s d <;> simp

theorem fetch_of_fetchable {s : State} {d : Word} (h : fetchable s d = true) : fetch s d = .ok (operand s d) := by
  simp [fetch, h]

@[simp] theorem operand_rows (s : State) (d : Word) : (operand s d).rows = descRows d := rfl
@[simp] theorem operand_cols (s : State) (d : Word) : (operand s d).cols = descCols d := rfl

/-- The coefficients of a fetched operand: each word's residue modulo q (rule R63). -/
theorem coef_operand {s : State} {d : Word} {r c t : Nat} (hr : r < descRows d) (hc : c < descCols d)
    (ht : t < s.ring.n) :
    (operand s d).coef r c t = ((s.pmWord (descSlot d r c) t).getD 0).toNat % s.ring.q := by
  rw [operand, coef_matOfCoefs _ hr hc ht, modq_natCast]

/-! ## Store -/

theorem mem_storeWords {s : State} {d : Word} {M : Mat} {w : Nat × Word} :
    w ∈ storeWords s d M ↔ ∃ r < descRows d, ∃ c < descCols d, ∃ t < s.ring.n,
      w = (wordAddr s.params (descSlot d r c) t, BitVec.ofNat 32 (M.coef r c t)) := by
  simp only [storeWords, List.mem_flatMap, List.mem_map, List.mem_range]
  constructor
  · rintro ⟨r, hr, c, hc, t, ht, rfl⟩; exact ⟨r, hr, c, hc, t, ht, rfl⟩
  · rintro ⟨r, hr, c, hc, t, ht, rfl⟩; exact ⟨r, hr, c, hc, t, ht, rfl⟩

/-- A store keeps PM canonical. -/
theorem store_wf {s : State} (h : s.pm.wf = true) (d : Word) (M : Mat) : (store d M s).pm.wf = true :=
  Memory.writeAll_wf h _

/-- What a store leaves in its region: the matrix, word by word (rule R64). -/
theorem store_pmWord {s : State} {d : Word} (hw : s.pm.wf = true) (hc : s.cfgOk = true) (M : Mat) {r c t : Nat}
    (hr : r < descRows d) (hcol : c < descCols d) (ht : t < s.ring.n) :
    (store d M s).pmWord (descSlot d r c) t = some (BitVec.ofNat 32 (M.coef r c t)) := by
  have hn := ring_n_le_nmax hc
  refine Memory.read_writeAll_mem hw (mem_storeWords.2 ⟨r, hr, c, hcol, t, ht, rfl⟩) ?_
  rintro w hmem heq
  obtain ⟨r', hr', c', hc', t', ht', rfl⟩ := mem_storeWords.1 hmem
  obtain ⟨hs, rfl⟩ := wordAddr_inj (by omega) (by simp only [store_params] at *; omega) heq
  obtain ⟨rfl, rfl⟩ := descSlot_inj hc' hcol hs
  rfl

/-- Every word outside a store's region keeps its value (rule R64). -/
theorem store_read_other {s : State} {d : Word} (hw : s.pm.wf = true) (M : Mat) {a : Nat}
    (ha : ∀ r < descRows d, ∀ c < descCols d, ∀ t < s.ring.n, a ≠ wordAddr s.params (descSlot d r c) t) :
    (store d M s).pm.read a = s.pm.read a := by
  refine Memory.read_writeAll_other hw fun w hmem => ?_
  obtain ⟨r, hr, c, hc, t, ht, rfl⟩ := mem_storeWords.1 hmem
  exact (ha r hr c hc t ht).symm

/-! ## The checks of a command -/

/-- The used fields have no invalid descriptor exactly when each is valid. -/
theorem firstInvalid_none {s : State} {used : List (OperandField × Idx)} :
    firstInvalid s used = none ↔ ∀ u ∈ used, descValid s.params (s.desc u.2) = true := by
  induction used with
  | nil => simp [firstInvalid]
  | cons u rest ih =>
    obtain ⟨f, i⟩ := u
    simp only [firstInvalid, List.forall_mem_cons]
    cases h : descValid s.params (s.desc i) <;> simp [ih]

/-- Everything a command other than NOP can do (60_exceptions.md rule R205 steps 3 to 6). -/
theorem runCommand_cases (opc : Opcode) (used : List (OperandField × Idx)) (ok : Bool) (p : Except Fault State)
    (s : State) :
    (s.cfgOk = false ∧ runCommand opc used ok p s = .next (raiseError .notConfigured opc 0 s)) ∨
    (s.cfgOk = true ∧ ∃ f, firstInvalid s used = some f ∧
      runCommand opc used ok p s = .next (raiseError .badDescriptor opc f.opnd s)) ∨
    (s.cfgOk = true ∧ firstInvalid s used = none ∧ ok = false ∧
      runCommand opc used ok p s = .next (raiseError .shapeMismatch opc 0 s)) ∨
    (s.cfgOk = true ∧ firstInvalid s used = none ∧ ok = true ∧
      ((∃ t, p = .ok t ∧ runCommand opc used ok p s = .next (complete t)) ∨
        (∃ r, p = .error r ∧ runCommand opc used ok p s = .fault r))) := by
  unfold runCommand
  cases hc : s.cfgOk with
  | false => simp
  | true =>
    cases hf : firstInvalid s used with
    | some f => simp
    | none =>
      cases ok with
      | false => simp
      | true =>
        cases p with
        | ok t => exact .inr (.inr (.inr ⟨rfl, rfl, rfl, .inl ⟨t, rfl, rfl⟩⟩))
        | error r => exact .inr (.inr (.inr ⟨rfl, rfl, rfl, .inr ⟨r, rfl, rfl⟩⟩))

/-- A command whose checks pass completes when its rule answers a state. -/
theorem runCommand_ok {opc : Opcode} {used : List (OperandField × Idx)} {ok : Bool} {p : Except Fault State}
    {s t : State} (hc : s.cfgOk = true) (hv : ∀ u ∈ used, descValid s.params (s.desc u.2) = true) (hs : ok = true)
    (hp : p = .ok t) : runCommand opc used ok p s = .next (complete t) := by
  simp [runCommand, hc, firstInvalid_none.2 hv, hs, hp]

end Sys2Proof.Machine
end

