-- ==== Sys2Proof/Laws/Commands.lean ====
section
/-! SUPPORT. From the terms the claims use (Safety) to the operations the meanings call, and what every command can do at
all. -/

namespace Sys2Proof.Machine

/-- The words a fetch of MDi reads are written exactly when the fetch answers. -/
theorem fetchable_iff_written (s : State) (i : Idx) : fetchable s (s.desc i) = true ↔ Written s i :=
  fetchable_iff s (s.desc i)

/-- A fetched coefficient is the residue of its word. -/
theorem coef_operand_eq_residue (s : State) (i : Idx) {r c t : Nat} (hr : r < rowsOf s i) (hc : c < colsOf s i)
    (ht : t < s.ring.n) : (operand s (s.desc i)).coef r c t = residue s i r c t := coef_operand hr hc ht

/-- A residue is canonical. -/
theorem residue_lt (s : State) (i : Idx) (r c t : Nat) : residue s i r c t < s.ring.q := Nat.mod_lt _ s.ring.q_pos

/-- The state a completed store leaves is the one `Stores` describes, for any f that gives the matrix's coefficients and
fits a PM word. -/
theorem stores_of_store {s : State} (md : Idx) {M : Mat} {f : Nat → Nat → Nat → Nat} (hw : s.pm.wf = true)
    (hc : s.cfgOk = true)
    (hf : ∀ r < rowsOf s md, ∀ c < colsOf s md, ∀ x < s.ring.n, M.coef r c x = f r c x ∧ f r c x < 2 ^ 32) :
    Stores s (complete (store (s.desc md) M s)) md f := by
  refine ⟨fun r hr c hcol x hx => ?_, fun a ha => store_read_other hw M ha, rfl⟩
  obtain ⟨he, hlt⟩ := hf r hr c hcol x hx
  refine ⟨BitVec.ofNat 32 (M.coef r c x), store_pmWord hw hc M hr hcol hx, ?_⟩
  rw [he, BitVec.toNat_ofNat, Nat.mod_eq_of_lt hlt]

/-! ## What the rule of a command can answer -/

/-- What the rule of command i answers, given its used fields: a store through a used MD, the band flag of a CHKSK, or the
fault of an unwritten word. -/
def Performs (i : Instr) (s : State) (used : List (OperandField × Idx)) (p : Except Fault State) : Prop :=
  (∃ (d : Idx) (M : Mat), (.md, d) ∈ used ∧ p = .ok (store (s.desc d) M s)) ∨
    (∃ (b : Bool) (ms1 ms2 : Idx), i = .chksk ms1 ms2 ∧ p = .ok { s with chk := b }) ∨ p = .error .unwrittenWord

/-- A rule that fetches one operand and goes on. -/
theorem fetch_bind (s : State) (d : Word) (g : Mat → Except Fault State) :
    (fetchable s d = true ∧ (fetch s d >>= g) = g (operand s d)) ∨
      (fetchable s d = false ∧ (fetch s d >>= g) = .error .unwrittenWord) := by
  rcases fetch_cases s d with ⟨h, e⟩ | ⟨h, e⟩
  · exact .inl ⟨h, by rw [e]; rfl⟩
  · exact .inr ⟨h, by rw [e]; rfl⟩

/-- A rule goes on from a fetch as what follows it does. -/
theorem performs_fetch {i : Instr} {s : State} {used : List (OperandField × Idx)} (d : Word)
    {g : Mat → Except Fault State} (h : ∀ M, Performs i s used (g M)) : Performs i s used (fetch s d >>= g) := by
  rcases fetch_bind s d g with ⟨_, e⟩ | ⟨_, e⟩ <;> rw [e]
  · exact h _
  · exact .inr (.inr rfl)

/-- A rule that ends with a store through MD. -/
theorem performs_store {i : Instr} {s : State} {used : List (OperandField × Idx)} (d : Idx) (M : Mat)
    (h : (.md, d) ∈ used) : Performs i s used (pure (store (s.desc d) M s)) := .inl ⟨d, M, h, rfl⟩

/-- Every command but NOP is its checks followed by its rule (60_exceptions.md rule R205). -/
theorem exec_eq_runCommand (i : Instr) (s : State) (hi : i ≠ .nop) :
    ∃ used ok p, exec i s = runCommand i.opcode used ok p s ∧ Performs i s used p := by
  cases i with
  | nop => exact absurd rfl hi
  | chksk a b =>
    exact ⟨_, _, _, rfl, performs_fetch _ fun _ => performs_fetch _ fun _ => .inr (.inl ⟨_, a, b, rfl, rfl⟩)⟩
  | enc d a b c =>
    exact ⟨_, _, _, rfl, performs_fetch _ fun _ => performs_fetch _ fun _ => performs_fetch _ fun _ =>
      performs_store d _ (by simp)⟩
  | mneg d a | mident d a | mcopy d a | mtrans d a | pow2 d a | bdec d a | bdinv d a | flat d a | skgen d a | pkgen d a =>
    exact ⟨_, _, _, rfl, performs_fetch _ fun _ => performs_store d _ (by simp)⟩
  | madd d a b | msub d a b | mmul d a b | mscale d a b | dec d a b | hmc d a b | hadd d a b =>
    exact ⟨_, _, _, rfl, performs_fetch _ fun _ => performs_fetch _ fun _ => performs_store d _ (by simp)⟩

end Sys2Proof.Machine
end

