-- ==== Sys2Proof/Laws/Decode.lean ====
section
/-! SUPPORT. The fields of a packed word (30_encoding.md rule R91). -/

namespace Sys2Proof

/-- An append as a number. -/
theorem toNat_append_eq {m n : Nat} (x : BitVec m) (y : BitVec n) : (x ++ y).toNat = x.toNat * 2 ^ n + y.toNat := by
  rw [BitVec.toNat_append, ← Nat.shiftLeft_add_eq_or_of_lt y.isLt, Nat.shiftLeft_eq]

/-- A packed word as a number: each field at its place (rule R91). -/
theorem toNat_packWord (c : RawCommand) :
    (packWord c).toNat = c.opc.toNat * 2 ^ 24 + c.md.toNat * 2 ^ 20 + c.ms1.toNat * 2 ^ 16 + c.ms2.toNat * 2 ^ 12 +
      c.ms3.toNat * 2 ^ 8 + c.rsv.toNat := by
  simp only [packWord, toNat_append_eq]
  ring

/-- Reading the fields of a packed word gives them back. -/
theorem rawOf_packWord (c : RawCommand) : rawOf (packWord c) = c := by
  have h := toNat_packWord c
  obtain ⟨o, d, a, b, e, r⟩ := c
  simp only [rawOf, opcOf, mdOf, ms1Of, ms2Of, ms3Of, rsvOf, RawCommand.mk.injEq]
  have := o.isLt; have := d.isLt; have := a.isLt; have := b.isLt; have := e.isLt; have := r.isLt
  refine ⟨?_, ?_, ?_, ?_, ?_, ?_⟩ <;>
  · apply BitVec.eq_of_toNat_eq
    rw [BitVec.extractLsb'_toNat, Nat.shiftRight_eq_div_pow, h]
    simp only at *
    omega

/-- Packing the fields of a word gives it back. -/
theorem packWord_rawOf (w : Word) : packWord (rawOf w) = w := by
  apply BitVec.eq_of_toNat_eq
  have := w.isLt
  rw [toNat_packWord]
  simp only [rawOf, opcOf, mdOf, ms1Of, ms2Of, ms3Of, rsvOf, BitVec.extractLsb'_toNat, Nat.shiftRight_eq_div_pow]
  omega

/-- The fields of an encoded command. -/
theorem rawOf_encode (i : Instr) : rawOf (encode i) = i.fields := rawOf_packWord _

/-! One equation per field, for the decoder. -/

theorem opcOf_encode (i : Instr) : opcOf (encode i) = i.fields.opc := congrArg RawCommand.opc (rawOf_encode i)
theorem mdOf_encode (i : Instr) : mdOf (encode i) = i.fields.md := congrArg RawCommand.md (rawOf_encode i)
theorem ms1Of_encode (i : Instr) : ms1Of (encode i) = i.fields.ms1 := congrArg RawCommand.ms1 (rawOf_encode i)
theorem ms2Of_encode (i : Instr) : ms2Of (encode i) = i.fields.ms2 := congrArg RawCommand.ms2 (rawOf_encode i)
theorem ms3Of_encode (i : Instr) : ms3Of (encode i) = i.fields.ms3 := congrArg RawCommand.ms3 (rawOf_encode i)
theorem rsvOf_encode (i : Instr) : rsvOf (encode i) = i.fields.rsv := congrArg RawCommand.rsv (rawOf_encode i)

/-! ## What an accepting arm of the decoder says about the word -/

/-- A guarded command is accepted exactly when its zeros are zero. -/
theorem decodeIf_ok {z : Bool} {j i : Instr} (h : decodeIf z j = .ok i) : i = j ∧ z = true := by
  cases z <;> simp_all [decodeIf]

/-- An accepted word of a one-source command has the fields of the command. -/
theorem decodeUnary_fields {w : Word} {f : Idx → Idx → Instr} {i : Instr} {o : Nat}
    (hf : ∀ d a, (f d a).fields = ⟨BitVec.ofNat 8 o, d, a, 0, 0, 0⟩) (ho : (opcOf w).toNat = o)
    (h : decodeUnary w f = .ok i) : i.fields = rawOf w := by
  obtain ⟨rfl, hz⟩ := decodeIf_ok h
  simp only [Bool.and_eq_true, beq_iff_eq] at hz
  rw [hf, rawOf, ← ho, hz.1.1, hz.1.2, hz.2, BitVec.ofNat_toNat, BitVec.setWidth_eq]

/-- An accepted word of a two-source command has the fields of the command. -/
theorem decodeBinary_fields {w : Word} {f : Idx → Idx → Idx → Instr} {i : Instr} {o : Nat}
    (hf : ∀ d a b, (f d a b).fields = ⟨BitVec.ofNat 8 o, d, a, b, 0, 0⟩) (ho : (opcOf w).toNat = o)
    (h : decodeBinary w f = .ok i) : i.fields = rawOf w := by
  obtain ⟨rfl, hz⟩ := decodeIf_ok h
  simp only [Bool.and_eq_true, beq_iff_eq] at hz
  rw [hf, rawOf, ← ho, hz.1, hz.2, BitVec.ofNat_toNat, BitVec.setWidth_eq]

end Sys2Proof
end

