-- ==== Sys2Proof/Laws/PerInstr.lean ====
section
/-! SUPPORT. The family `EncodeWellFormed`, command by command: an encoded command is a well-formed word (30_encoding.md
rule R94). -/

namespace Sys2Proof.Laws.EncodeWellFormed

open Sys2Proof

/-- The word of i has a defined opcode and zeros in RSV and in every operand field its opcode does not use. -/
def Statement (i : Instr) : Prop := (rawOf (encode i)).wellFormed = true

/-- A word is well-formed as its fields are. -/
theorem of_fields {i : Instr} (h : i.fields.wellFormed = true) : Statement i := by rw [Statement, rawOf_encode, h]

theorem nop : Statement .nop := of_fields rfl
theorem madd (d a b : Idx) : Statement (.madd d a b) := of_fields rfl
theorem msub (d a b : Idx) : Statement (.msub d a b) := of_fields rfl
theorem mneg (d a : Idx) : Statement (.mneg d a) := of_fields rfl
theorem mmul (d a b : Idx) : Statement (.mmul d a b) := of_fields rfl
theorem mscale (d a b : Idx) : Statement (.mscale d a b) := of_fields rfl
theorem mident (d a : Idx) : Statement (.mident d a) := of_fields rfl
theorem mcopy (d a : Idx) : Statement (.mcopy d a) := of_fields rfl
theorem mtrans (d a : Idx) : Statement (.mtrans d a) := of_fields rfl
theorem pow2 (d a : Idx) : Statement (.pow2 d a) := of_fields rfl
theorem bdec (d a : Idx) : Statement (.bdec d a) := of_fields rfl
theorem bdinv (d a : Idx) : Statement (.bdinv d a) := of_fields rfl
theorem flat (d a : Idx) : Statement (.flat d a) := of_fields rfl
theorem skgen (d a : Idx) : Statement (.skgen d a) := of_fields rfl
theorem pkgen (d a : Idx) : Statement (.pkgen d a) := of_fields rfl
theorem enc (d a b c : Idx) : Statement (.enc d a b c) := of_fields rfl
theorem dec (d a b : Idx) : Statement (.dec d a b) := of_fields rfl
theorem hmc (d a b : Idx) : Statement (.hmc d a b) := of_fields rfl
theorem hadd (d a b : Idx) : Statement (.hadd d a b) := of_fields rfl
theorem chksk (a b : Idx) : Statement (.chksk a b) := of_fields rfl

end Sys2Proof.Laws.EncodeWellFormed
end

