-- ==== Sys2Proof/Laws/Run.lean ====
section
/-! SUPPORT. Runs along an endless order of events: how one grows, that a stop is final, and the induction over its events,
packaged once. -/

namespace Sys2Proof.Machine

variable {σ : Nat → Event} {s : State}

/-- An event at the head of the schedule is what the next step handles. -/
theorem step_cons (e : Event) (rest : List Event) (h : s.schedule = e :: rest) :
    step s = handle e { s with schedule := rest } := by
  simp only [step, nextStep, h]

/-- With no event left nothing moves. -/
theorem step_nil (h : s.schedule = []) : step s = .next s := by simp only [step, nextStep, h]

/-- One event more: what it does to the state so far. -/
theorem after_eq_handle (e : Event) (s : State) : after e s = handle e s := rfl

@[simp] theorem runAlong_zero : runAlong σ s 0 = .next s := rfl

/-- A run that goes on grows by its next event. -/
theorem runAlong_succ {m : Nat} {t : State} (h : runAlong σ s m = .next t) :
    runAlong σ s (m + 1) = after (σ m) t := by simp only [runAlong, h]

/-- A run that goes on after some events went on after fewer. -/
theorem runAlong_prefix {m : Nat} {t : State} (h : runAlong σ s (m + 1) = .next t) :
    ∃ u, runAlong σ s m = .next u ∧ after (σ m) u = .next t := by
  simp only [runAlong] at h
  split at h
  · exact ⟨_, ‹_›, h⟩
  · cases h
  · cases h

/-- What holds at the start and every event of the run keeps, holds all along it. -/
theorem runAlong_induction {p : State → Prop} (h0 : p s)
    (hstep : ∀ m u t, p u → after (σ m) u = .next t → p t) : ∀ m t, runAlong σ s m = .next t → p t := by
  intro m
  induction m with
  | zero => intro t h; cases h; exact h0
  | succ m ih =>
    intro t h
    obtain ⟨u, hu, ht⟩ := runAlong_prefix h
    exact hstep m u t (ih u hu) ht

end Sys2Proof.Machine
end

