-- ==== Sys2Proof/Laws/Window.lean ====
section
/-! SUPPORT. What a host access and the draws of a soft reset can do, said once (20_memory.md rules R60, R61;
70_reset_and_hazards.md rule R233). -/

namespace Sys2Proof.Machine

/-! ## Host accesses -/

/-- Every host access is a read or a write of one register, an access error, or no access of this engine. -/
theorem hostAccess_cases (a : Access) (s : State) :
    (∃ r, hostAccess a s = readReg r s) ∨ (∃ r v, hostAccess a s = .next (writeReg r v s)) ∨
      hostAccess a s = .next (deliver 0 s.setAerr) ∨ hostAccess a s = .next s.setAerr ∨
      hostAccess a s = .refused .outsideWindow := by
  cases a with
  | read addr width =>
    simp only [hostAccess]
    split
    · split
      · exact .inl ⟨_, rfl⟩
      · exact .inr (.inr (.inl rfl))
    · simp
  | write addr width v =>
    simp only [hostAccess]
    split
    · split
      · exact .inr (.inl ⟨_, _, rfl⟩)
      · simp
    · simp

/-- Every register read delivers a value, from the state as it is, with a flag set, or with PMADDR advanced; or it is
PMDATA's fault. -/
theorem readReg_cases (r : Reg) (s : State) :
    (∃ v, readReg r s = .next (deliver v s)) ∨ readReg r s = .next (deliver 0 s.setHaz) ∨
      readReg r s = .next (deliver 0 s.setAerr) ∨ (∃ v, readReg r s = .next (deliver v (advance s))) ∨
      readReg r s = .fault .unwrittenWord := by
  cases r with
  | pmdata =>
    simp only [readReg, readPmdata]
    split
    · simp
    · split
      · split
        · exact .inr (.inr (.inr (.inl ⟨_, rfl⟩)))
        · simp
      · simp
  | _ => exact .inl ⟨_, rfl⟩

/-! ## Draws -/

/-- Draws keep PM canonical. -/
theorem drawWords_wf {m : Memory} (h : m.wf = true) (first : Nat) (l : List Nat) : (drawWords first m l).wf = true :=
  Memory.writeAll_wf h _

/-- A drawn address holds the free word of its place in the list. -/
theorem read_drawWords_mem {m : Memory} (h : m.wf = true) (first : Nat) {l : List Nat} (hn : l.Nodup) {a : Nat}
    (ha : a ∈ l) : (drawWords first m l).read a = some (Config.freeWord (first + l.idxOf a)) := by
  refine Memory.read_writeAll_mem h ?_ ?_
  · rw [List.mem_map]
    refine ⟨(a, l.idxOf a), ?_, rfl⟩
    rw [List.mem_zipIdx_iff_getElem?]
    simp [List.getElem?_idxOf ha]
  · rintro w hw rfl
    obtain ⟨⟨b, i⟩, hb, rfl⟩ := List.mem_map.1 hw
    rw [List.mem_zipIdx_iff_getElem?] at hb
    obtain ⟨hi, hbi⟩ := List.getElem?_eq_some_iff.1 hb
    simp only at hi hbi ⊢
    rw [← hbi, hn.idxOf_getElem i hi]

/-- An address that is not drawn reads as before. -/
theorem read_drawWords_other {m : Memory} (h : m.wf = true) (first : Nat) {l : List Nat} {a : Nat} (ha : a ∉ l) :
    (drawWords first m l).read a = m.read a := by
  refine Memory.read_writeAll_other h ?_
  rintro w hw rfl
  obtain ⟨⟨b, i⟩, hb, rfl⟩ := List.mem_map.1 hw
  obtain ⟨-, hbi⟩ := List.mem_zipIdx' hb
  exact ha (by simp only [hbi]; exact List.getElem_mem _)

/-- The addresses a soft reset draws are all different. -/
theorem abandonedWords_nodup (s : State) (w : Word) : (abandonedWords s w).Nodup := by
  simp only [abandonedWords]
  split
  · rw [List.nodup_flatMap]
    constructor
    · refine fun x _ => List.nodup_range.map_on fun a ha b hb h => ?_
      simp only [List.mem_range] at ha hb
      exact (wordAddr_inj (by omega) (by omega) h).2
    · refine List.Pairwise.imp_of_mem (fun {a b} _ _ hne => ?_) List.nodup_range
      simp only [Function.onFun, List.disjoint_left, List.mem_map, List.mem_range]
      rintro _ ⟨t, ht, rfl⟩ ⟨t', ht', h⟩
      have := (wordAddr_inj (by omega) (by omega) h).1
      omega
  · exact List.nodup_nil

end Sys2Proof.Machine
end

