-- ==== Sys2Proof/Tests/Slice0.lean ====
section
/-! SUPPORT. The model's own tests. The expected results are the vectors of 95_test_vectors.md (named by their ids) or
calculated by hand from the rules (marked "by hand"). At the end, for every obligation with hypotheses, a state and operands
that meet them. -/

namespace Sys2Proof.Tests

set_option Elab.async false

open Sys2Proof Sys2Proof.Machine Sys2Proof.Spec

/-! ## Words: WellFormed and Decode (30_encoding.md) -/

/-- Opcode 0x0A is not in the table (ERR-4). -/
theorem test_wellFormed_refuses_opcode : (rawOf 0x0A000000).opcodeDefined = false := by decide
/-- RSV must be 0 (ERR-2). -/
theorem test_wellFormed_refuses_reserved :
    (rawOf 0x00000001).reservedZero = false ∧ (rawOf 0x00000001).wellFormed = false := by decide
/-- An unused operand field must be 0 (ERR-3, ERR-6, ERR-7). -/
theorem test_wellFormed_refuses_unused :
    (rawOf 0x00100000).unusedZero = false ∧ (rawOf 0x03103000).unusedZero = false ∧
      (rawOf 0x26112000).unusedZero = false := by decide
/-- ILLEGAL_OPCODE comes before RESERVED_FIELD (ERR-5); each must-be-zero field by name. -/
theorem test_decode_refusals :
    decode 0xFF0000FF = .error .illegalOpcode ∧ decode 0x14000000 = .error .illegalOpcode ∧
      decode 0x27000000 = .error .illegalOpcode ∧ decode 0x22401201 = .error .reservedField ∧
      decode 0x01123100 = .error .reservedField ∧ decode 0x03121000 = .error .reservedField := by decide

/-! The words of 95_test_vectors.md section 4, one for each command (ENC-NOP to ENC-CHKSK). -/

theorem test_decode_nop : decode 0x00000000 = .ok .nop := by decide
theorem test_decode_madd : decode 0x01123000 = .ok (.madd 1 2 3) := by decide
theorem test_decode_msub : decode 0x02123000 = .ok (.msub 1 2 3) := by decide
theorem test_decode_mneg : decode 0x03120000 = .ok (.mneg 1 2) := by decide
theorem test_decode_mmul : decode 0x04312000 = .ok (.mmul 3 1 2) := by decide
theorem test_decode_mscale : decode 0x05456000 = .ok (.mscale 4 5 6) := by decide
theorem test_decode_mident : decode 0x06780000 = .ok (.mident 7 8) := by decide
theorem test_decode_mcopy : decode 0x079A0000 = .ok (.mcopy 9 10) := by decide
theorem test_decode_mtrans : decode 0x08BC0000 = .ok (.mtrans 11 12) := by decide
theorem test_decode_pow2 : decode 0x10100000 = .ok (.pow2 1 0) := by decide
theorem test_decode_bdec : decode 0x11210000 = .ok (.bdec 2 1) := by decide
theorem test_decode_bdinv : decode 0x12320000 = .ok (.bdinv 3 2) := by decide
theorem test_decode_flat : decode 0x13FF0000 = .ok (.flat 15 15) := by decide
theorem test_decode_skgen : decode 0x202F0000 = .ok (.skgen 2 15) := by decide
theorem test_decode_pkgen : decode 0x21100000 = .ok (.pkgen 1 0) := by decide
theorem test_decode_enc : decode 0x22401200 = .ok (.enc 4 0 1 2) := by decide
theorem test_decode_dec : decode 0x23CB2000 = .ok (.dec 12 11 2) := by decide
theorem test_decode_hmc : decode 0x24985000 = .ok (.hmc 9 8 5) := by decide
theorem test_decode_hadd : decode 0x25B9A000 = .ok (.hadd 11 9 10) := by decide
theorem test_decode_chksk : decode 0x26012000 = .ok (.chksk 1 2) := by decide

/-! ## Small states -/

/-- A small implementation: 64 slots of 4 words. -/
def params : Config.Params := { logqMax := 32, lognMax := 2, slots := 64, decReduce := false, hostBase := 0x1000 }

/-- A descriptor (10_state.md rule R31). -/
def desc (base rows cols : Nat) : Word := BitVec.ofNat 32 (cols * 2 ^ 24 + rows * 2 ^ 16 + base)

/-- PM with slot 0, 1, .. holding the given words, from coefficient 0 on. -/
def memory (slots : List (List Nat)) : Memory :=
  ⟨slots.zipIdx.flatMap fun s => s.1.zipIdx.map fun w => (s.2 * 4 + w.2, BitVec.ofNat 32 w.1)⟩

/-- A configured state with the given LOGQ and LOGN, descriptors MD0, MD1, .. and slots 0, 1, .. -/
def small (logq logn : Nat) (descs : List Word) (slots : List (List Nat)) : State :=
  { State.reset with params := params, cfg := BitVec.ofNat 32 (logn * 256 + logq),
                     md := Vector.ofFn fun i => descs.getD i 0, pm := memory slots }

/-- A state in which a command word is pending as its acceptance leaves it. -/
def pending (w : Word) (s : State) : State := { s with pend := some w, lastCmd := w, done := false }

/-- One step, a turn of the engine, with a command word pending. -/
def run (w : Word) (s : State) : Host.Outcome State Fault Refusal := after .engine (pending w s)

/-- After a completed command: the words 0 .. n-1 of `count` slots from `base` on. -/
def stored (base count n : Nat) (o : Host.Outcome State Fault Refusal) : Option (List (List Nat)) :=
  match o with
  | .next t =>
    if t.done && !t.err && t.pend.isNone then
      some ((List.range count).map fun x => (List.range n).map fun y => ((t.pmWord (base + x) y).getD 0xBAD).toNat)
    else none
  | _ => none

/-- After an erroneous command: CAUSE. -/
def causeOf (o : Host.Outcome State Fault Refusal) : Option Nat :=
  match o with
  | .next t => if t.err && !t.done && t.pend.isNone then some t.cause.toNat else none
  | _ => none

/-- The outcome is a next state with the given property. -/
def nextWith (o : Host.Outcome State Fault Refusal) (p : State → Prop) [DecidablePred p] : Bool :=
  match o with
  | .next t => decide (p t)
  | _ => false

theorem exists_next {o : Host.Outcome State Fault Refusal} {p : State → Prop} [DecidablePred p]
    (h : nextWith o p = true) : ∃ t, o = .next t ∧ p t := by
  cases o with
  | next t => exact ⟨t, rfl, by simpa [nextWith] using h⟩
  | fault r => cases h
  | refused r => cases h

/-! ## The commands -/

/-- q = 16, n = 4: the 2×2 matrices A and B of MAT-2 at slots 0..3 and 4..7, room for a result at 8. -/
def matAB : State :=
  small 4 2 [desc 0 2 2, desc 4 2 2, desc 8 2 2]
    [[1,2,3,4], [5,6,7,8], [0,0,0,1], [15,0,0,0], [1,1,0,0], [0,0,0,0], [0,1,0,0], [2,0,0,0]]

/-- ERR-17: NOP completes though CFG is not valid. -/
theorem test_nop : nextWith (run 0x00000000 { matAB with cfg := 0 }) (fun t => t.statusWord = 0x00000002) = true := by
  decide +kernel
/-- MAT-3. -/
theorem test_madd : stored 8 4 4 (run 0x01201000 matAB) = some [[2,3,3,4], [5,6,7,8], [0,1,0,1], [1,0,0,0]] := by
  decide +kernel
/-- MAT-4. -/
theorem test_msub : stored 8 4 4 (run 0x02201000 matAB) = some [[0,1,3,4], [5,6,7,8], [0,15,0,1], [13,0,0,0]] := by
  decide +kernel
/-- MAT-5, the destination being the source. -/
theorem test_mneg : stored 0 4 4 (run 0x03000000 matAB) = some [[15,14,13,12], [11,10,9,8], [0,0,0,15], [1,0,0,0]] := by
  decide +kernel
/-- MAT-2. -/
theorem test_mmul :
    stored 8 4 4 (run 0x04201000 matAB) = some [[5,8,11,14], [10,12,14,0], [15,15,0,1], [14,0,0,0]] := by
  decide +kernel
/-- RING-16: q = 2^32, n = 2, the destination being a source. -/
theorem test_mmul_wide :
    stored 0 1 2 (run 0x04001000 (small 32 1 [desc 0 1 1, desc 1 1 1] [[0xFFFFFFFF,2], [0xFFFFFFFF,0x80000000]])) =
      some [[0x00000001,0x7FFFFFFE]] := by decide +kernel
/-- q = 16, n = 4: the row and the factor of MAT-6. -/
def mscaleState : State :=
  small 4 2 [desc 0 1 2, desc 2 1 1, desc 3 1 2] [[1,2,3,4], [0,0,0,1], [0,1,0,0]]

/-- MAT-6. -/
theorem test_mscale :
    stored 3 2 4 (run 0x05201000
      mscaleState) =
      some [[12,1,2,3], [15,0,0,0]] := by decide +kernel
/-- q = 2, n = 2, so N = 2. -/
def midentState : State :=
  small 1 1 [desc 0 1 1, desc 1 2 2] [[3,1]]

/-- By hand, as MAT-8: q = 2, so N = 2. -/
theorem test_mident :
    stored 1 4 2 (run 0x06100000 midentState) =
      some [[1,1], [0,0], [0,0], [1,1]] := by decide +kernel
/-- RING-3 to RING-5: a copy is canonical. -/
theorem test_mcopy :
    stored 1 1 4 (run 0x07100000
      (small 4 2 [desc 0 1 1, desc 1 1 1] [[0x10,0x12345678,0xFFFFFFFF,0xF], [9,9,9,9]])) =
      some [[0,8,15,15]] := by decide +kernel
/-- MAT-7. -/
theorem test_mtrans :
    stored 6 6 4 (run 0x08100000 (small 4 2 [desc 0 2 3, desc 6 3 2]
      [[1,0,0,0], [2,0,0,0], [3,0,0,0], [4,0,0,0], [5,0,0,0], [6,0,0,0]])) =
      some [[1,0,0,0], [4,0,0,0], [2,0,0,0], [5,0,0,0], [3,0,0,0], [6,0,0,0]] := by decide +kernel
/-- q = 16, n = 4: the element of GAD-1 and GAD-2. -/
def gadState : State :=
  small 4 2 [desc 0 1 1, desc 1 1 4] [[5,12,0,15]]

/-- GAD-2. -/
theorem test_pow2 :
    stored 1 4 4 (run 0x10100000 gadState) =
      some [[5,12,0,15], [10,8,0,14], [4,0,0,12], [8,0,0,8]] := by decide +kernel
/-- GAD-1. -/
theorem test_bdec :
    stored 1 4 4 (run 0x11100000 gadState) =
      some [[1,0,0,1], [0,0,0,1], [1,1,0,1], [0,1,0,1]] := by decide +kernel

/-- The non-binary row of GAD-4, and room for a 1×1 and a 1×4 result. -/
def gad4 : State :=
  small 4 2 [desc 0 1 4, desc 4 1 1, desc 5 1 4] [[1,2,3,15], [1,1,1,1], [0,0,0,0], [15,0,0,1]]

/-- GAD-4. -/
theorem test_bdinv : stored 4 1 4 (run 0x12100000 gad4) = some [[11,4,5,9]] := by decide +kernel
/-- GAD-5. -/
theorem test_flat :
    stored 5 4 4 (run 0x13200000 gad4) = some [[1,0,1,1], [1,0,0,0], [0,1,1,0], [1,0,0,1]] := by decide +kernel
/-- q = 16, n = 4: the secret of GSW-1. -/
def skgenState : State :=
  small 4 2 [desc 0 1 1, desc 1 8 1] [[1,2,0,0]]

/-- GSW-1. -/
theorem test_skgen :
    stored 1 8 4 (run 0x20100000 skgenState) =
      some [[1,0,0,0], [2,0,0,0], [4,0,0,0], [8,0,0,0], [15,14,0,0], [14,12,0,0], [12,8,0,0], [8,0,0,0]] := by
  decide +kernel
/-- q = 16, n = 4: the row of GSW-3. -/
def pkgenState : State :=
  small 4 2 [desc 0 1 3, desc 3 1 2] [[1,2,0,0], [3,0,0,1], [1,0,0,15]]

/-- GSW-3. -/
theorem test_pkgen :
    stored 3 2 4 (run 0x21100000 pkgenState) =
      some [[2,6,0,0], [3,0,0,1]] := by decide +kernel

/-- q = 4, n = 2, so N = 4: pt = 3 at slot 0; the drawn column (1, 0, 0, 0) at 1..4; the key row (2 + 3x, 1) at 5..6. -/
def encState : State :=
  small 2 1 [desc 0 1 1, desc 1 4 1, desc 5 1 2, desc 7 4 4]
    [[3,0], [1,0], [0,0], [0,0], [0,0], [2,3], [1,0]]

/-- By hand, as GSW-5: row 0 is flatten of ([3,0] + [0,1], [1,1], [1,0], [0,0]), the other rows are those of G(3). -/
theorem test_enc :
    stored 7 16 2 (run 0x22301200 encState) =
      some [[1,1], [0,1], [1,0], [0,0], [0,0], [1,0], [0,0], [0,0],
            [0,0], [0,0], [1,0], [1,0], [0,0], [0,0], [0,0], [1,0]] := by decide +kernel

/-- q = 4, n = 2: the 4×4 matrix G(3) but for a 1 in row 0, column 2 (slots 0..15); the key column of t = 1 (16..19). -/
def decState : State :=
  small 2 1 [desc 0 4 4, desc 16 4 1, desc 20 1 1]
    [[1,0], [1,0], [1,0], [0,0], [0,0], [1,0], [0,0], [0,0], [0,0], [0,0], [1,0], [1,0], [0,0], [0,0], [0,0], [1,0],
     [1,0], [2,0], [3,0], [2,0]]

/-- By hand, as GSW-7: V = (2, 2): level 1 is in the band, then 2 - 1 is in the band. -/
theorem test_dec : stored 20 1 2 (run 0x23201000 decState) = some [[3,0]] := by decide +kernel
/-- V7: the two settings of DEC_REDUCE differ. -/
theorem test_dec_reduce :
    (decodeLevels ⟨4, 1⟩ false (fun j => [15, 1, 12, 8].getD j 0) 4 0,
      decodeLevels ⟨4, 1⟩ true (fun j => [15, 1, 12, 8].getD j 0) 4 0) = (3, 15) := by decide +kernel

/-- q = 4, n = 2: G(3) at slots 0..15, the constant 3 at 16, room for a result at 17. -/
def hmcState : State :=
  small 2 1 [desc 0 4 4, desc 16 1 1, desc 17 4 4]
    [[1,0], [1,0], [0,0], [0,0], [0,0], [1,0], [0,0], [0,0], [0,0], [0,0], [1,0], [1,0], [0,0], [0,0], [0,0], [1,0],
     [3,0]]

/-- By hand, as GSW-8: 3·3 = 9 = 1 modulo 4, so the result is G(1). -/
theorem test_hmc :
    stored 17 16 2 (run 0x24201000 hmcState) =
      some [[1,0], [0,0], [0,0], [0,0], [0,0], [1,0], [0,0], [0,0],
            [0,0], [0,0], [1,0], [0,0], [0,0], [0,0], [0,0], [1,0]] := by decide +kernel
/-- By hand, as GSW-13: G(3) + G(3) = G(2). -/
theorem test_hadd :
    stored 17 16 2 (run 0x25200000 hmcState) =
      some [[0,0], [1,0], [0,0], [0,0], [0,0], [0,0], [0,0], [0,0],
            [0,0], [0,0], [0,0], [1,0], [0,0], [0,0], [0,0], [0,0]] := by decide +kernel

/-- q = 16, n = 4: the key row (c, 1) at slots 0..1, the secret column of t = 2 at 2..9. -/
def chkState (c : Nat) : State :=
  small 4 2 [desc 0 1 2, desc 2 8 1]
    [[c,0,0,0], [1,0,0,0], [1,0,0,0], [2,0,0,0], [4,0,0,0], [8,0,0,0], [14,0,0,0], [12,0,0,0], [8,0,0,0], [0,0,0,0]]

/-- GSW-15: the constant term is 8. -/
theorem test_chksk_in_band : nextWith (run 0x26001000 (chkState 10)) (fun t => t.statusWord = 0x00000062) = true := by
  decide +kernel
/-- GSW-16: the constant term is 1. -/
theorem test_chksk_outside :
    nextWith (run 0x26001000 { chkState 3 with chk := true }) (fun t => t.statusWord = 0x00000042) = true := by
  decide +kernel

/-! ## Errors (95_test_vectors.md section 4) -/

/-- The state S of the ERR rows, but for MD5's base, on 16 slots of zeros. -/
def errState : State :=
  small 4 2 [desc 0 1 1, desc 0 1 1, desc 0 1 1, desc 8 1 4, desc 0 0 1, desc 63 1 2] (List.replicate 16 [0,0,0,0])

/-- ERR-4, ERR-5, ERR-6. -/
theorem test_decode_errors :
    causeOf (run 0x0A000000 errState) = some 0x00000A01 ∧ causeOf (run 0xFF0000FF errState) = some 0x0000FF01 ∧
      causeOf (run 0x03103000 errState) = some 0x00000302 := by decide +kernel
/-- ERR-8, ERR-9, ERR-10, ERR-11. -/
theorem test_bad_descriptor :
    causeOf (run 0x01045000 errState) = some 0x00010104 ∧ causeOf (run 0x01400000 errState) = some 0x00040104 ∧
      causeOf (run 0x22400500 errState) = some 0x00032204 ∧ causeOf (run 0x01304000 errState) = some 0x00020104 := by
  decide +kernel
/-- ERR-12, ERR-14a, ERR-14b, ERR-15. -/
theorem test_shape_mismatch :
    causeOf (run 0x01301000 errState) = some 0x00000105 ∧ causeOf (run 0x11030000 errState) = some 0x00001105 ∧
      causeOf (run 0x12300000 errState) = some 0x00001205 ∧ causeOf (run 0x24001000 errState) = some 0x00002405 := by
  decide +kernel
/-- ERR-16, ERR-18. -/
theorem test_not_configured :
    causeOf (run 0x07100000 { errState with cfg := 0 }) = some 0x00000703 ∧
      causeOf (run 0x03100080 { errState with cfg := 0 }) = some 0x00000302 := by decide +kernel

/-! ## The host window (95_test_vectors.md section 4 and program P4) -/

/-- HOST-1 and HOST-2: the port advances past NMAX, or n once CFG is valid. -/
theorem test_pmdata_advance :
    nextWith (after (hostWrite State.reset 0x028 7) { State.reset with pmaddr := 0x000503FF })
        (fun t => t.pmaddr = 0x00060000 ∧ t.pmWord 5 1023 = some 7) = true ∧
      nextWith (after (hostWrite State.reset 0x028 7) { State.reset with cfg := 0x204, pmaddr := 0x00050003 })
        (fun t => t.pmaddr = 0x00060000 ∧ t.pmWord 5 3 = some 7) = true := by decide +kernel
/-- HOST-6, HOST-7, HOST-9. -/
theorem test_cfg_write :
    nextWith (after (hostWrite State.reset 0x010 0xFFFF0204) State.reset)
        (fun t => t.cfg = 0x204 ∧ t.statusWord = 0x40) = true ∧
      nextWith (after (hostWrite State.reset 0x010 0x221) State.reset)
        (fun t => t.cfg = 0x221 ∧ t.statusWord = 0x04 ∧ t.cause = 0x0000FF06) = true ∧
      nextWith (after (hostWrite State.reset 0x010 0xA20) State.reset) (fun t => t.statusWord = 0x40) = true := by
  decide +kernel
/-- HOST-12: a soft reset with NOP pending; IE is not set. -/
theorem test_soft_reset :
    nextWith (after (hostWrite State.reset 0x020 3) { State.reset with pend := some 0 })
      (fun t => t.statusWord = 0 ∧ t.ctrlWord = 0 ∧ t.pend = none) = true := by decide +kernel
/-- The constants of program P4, and offset 0x02C. -/
theorem test_constants :
    nextWith (after (hostRead State.reset 0x000) State.reset) (fun t => t.reads = [0x52475357]) = true ∧
      nextWith (after (hostRead State.reset 0x008) State.reset) (fun t => t.reads = [0x00100A20]) = true ∧
      nextWith (after (hostRead State.reset 0x00C) State.reset) (fun t => t.reads = [0x00004000]) = true ∧
      nextWith (after (hostRead State.reset 0x02C) State.reset)
        (fun t => t.reads = [0] ∧ t.statusWord = 0x10) = true := by decide +kernel
/-- 20_memory.md rule R62: the bytes of ID from the lowest address up are "WSGR". -/
theorem test_windowByte : windowByte State.reset 0 = some 0x57 ∧ windowByte State.reset 3 = some 0x52 := by decide

/-! ## Witnesses: for each obligation with hypotheses, a state and operands that meet all of them -/

/-- For StepRunsTheDecodedCommand, DecodedWordIsTheEncoding. -/
theorem witness_decoded_command :
    ({ pending 0x01201000 matAB with schedule := [.engine] } : State).pend = some 0x01201000 ∧
      ({ pending 0x01201000 matAB with schedule := [.engine] } : State).schedule = .engine :: [] ∧
      decode 0x01201000 = .ok (.madd 2 0 1) := by decide
/-- For IdleEngineKeepsState. -/
theorem witness_idle : State.reset.pend = none ∧ State.reset.schedule = [] := by decide

/-- For MaddStoresSums. -/
theorem witness_madd : Ready matAB [0, 1] [2] ∧ Shapes matAB (.madd 2 0 1) := by decide +kernel
/-- For MsubStoresDifferences. -/
theorem witness_msub : Ready matAB [0, 1] [0] ∧ Shapes matAB (.msub 0 0 1) := by decide +kernel
/-- For MnegStoresNegations. -/
theorem witness_mneg : Ready matAB [0] [2] ∧ Shapes matAB (.mneg 2 0) := by decide +kernel
/-- For MmulStoresProduct. -/
theorem witness_mmul : Ready matAB [0, 1] [2] ∧ Shapes matAB (.mmul 2 0 1) := by decide +kernel
/-- For MscaleStoresScaledElements. -/
theorem witness_mscale : Ready mscaleState [0, 1] [2] ∧ Shapes mscaleState (.mscale 2 0 1) := by decide +kernel
/-- For MidentStoresDiagonal. -/
theorem witness_mident : Ready midentState [0] [1] ∧ Shapes midentState (.mident 1 0) := by decide +kernel
/-- For McopyStoresResidues. -/
theorem witness_mcopy : Ready matAB [0] [2] ∧ Shapes matAB (.mcopy 2 0) := by decide +kernel
/-- For MtransStoresTranspose. -/
theorem witness_mtrans : Ready matAB [0] [2] ∧ Shapes matAB (.mtrans 2 0) := by decide +kernel
/-- For Pow2StoresPowers. -/
theorem witness_pow2 : Ready gadState [0] [1] ∧ Shapes gadState (.pow2 1 0) := by decide +kernel
/-- For BdecStoresBits. -/
theorem witness_bdec : Ready gadState [0] [1] ∧ Shapes gadState (.bdec 1 0) := by decide +kernel
/-- For BdinvStoresWeightedSums. -/
theorem witness_bdinv : Ready gad4 [0] [1] ∧ Shapes gad4 (.bdinv 1 0) := by decide +kernel
/-- For FlatStoresNormalisedGroups. -/
theorem witness_flat : Ready gad4 [0] [2] ∧ Shapes gad4 (.flat 2 0) := by decide +kernel
/-- For SkgenStoresSecretKey. -/
theorem witness_skgen : Ready skgenState [0] [1] ∧ Shapes skgenState (.skgen 1 0) := by decide +kernel
/-- For PkgenStoresPublicKey. -/
theorem witness_pkgen : Ready pkgenState [0] [1] ∧ Shapes pkgenState (.pkgen 1 0) := by decide +kernel
/-- For EncStoresCiphertext. -/
theorem witness_enc : Ready encState [0, 1, 2] [3] ∧ Shapes encState (.enc 3 0 1 2) := by decide +kernel
/-- For DecStoresDecodedElement. -/
theorem witness_dec : Ready decState [0, 1] [2] ∧ Shapes decState (.dec 2 0 1) := by decide +kernel
/-- For HmcStoresScaledCiphertext. -/
theorem witness_hmc : Ready hmcState [0, 1] [2] ∧ Shapes hmcState (.hmc 2 0 1) := by decide +kernel
/-- For HaddStoresSummedCiphertext. -/
theorem witness_hadd : Ready hmcState [0, 0] [2] ∧ Shapes hmcState (.hadd 2 0 0) := by decide +kernel
/-- For ChkskSetsBandFlag. -/
theorem witness_chksk : Ready (chkState 10) [0, 1] [] ∧ Shapes (chkState 10) (.chksk 0 1) := by decide +kernel

/-- For ChecksAreMadeInOrder, a word for each branch: no such opcode; a reserved field; NOP. -/
theorem witness_order_words :
    (rawOf 0x0A000000).opcodeDefined = false ∧
      ((rawOf 0x03103000).opcodeDefined = true ∧ (rawOf 0x03103000).unusedZero = false) ∧ encode .nop = 0 := by decide
/-- For ChecksAreMadeInOrder: not configured; an invalid descriptor. -/
theorem witness_order_descriptors :
    ¬ ValidCfg State.reset.params State.reset.cfg ∧ ValidCfg errState.params errState.cfg ∧
      ∃ u ∈ [((1 : BitVec 3), (4 : Idx)), (2, 5), (4, 0)], ¬ ValidDesc errState u.2 := by decide +kernel
/-- For ChecksAreMadeInOrder: valid descriptors and a wrong shape. -/
theorem witness_order_shapes :
    (∀ u ∈ usedFields (.madd 3 0 1), ValidDesc errState u.2) ∧ ¬ Shapes errState (.madd 3 0 1) := by decide +kernel
/-- For ChecksAreMadeInOrder: all checks passed and the sources written. -/
theorem witness_order_completes :
    Shapes errState (.bdec 3 0) ∧ ∀ j ∈ sources (.bdec 3 0), Written errState j := by decide +kernel
/-- For ChecksAreMadeInOrder: all checks passed and a source unwritten. -/
theorem witness_order_unwritten :
    ValidDesc matAB 2 ∧ Shapes matAB (.mneg 2 2) ∧ ¬ Written matAB 2 := by decide +kernel
/-- For ErrorsArePrecise. -/
theorem witness_precise_error :
    ∃ t, after .engine { errState with pend := some 0x01301000 } = .next t ∧ errState.err = false ∧ t.err = true :=
  exists_next (by decide +kernel)
/-- For CommandEndsWithDoneOrErr, of a command that completes. -/
theorem witness_command_completes :
    EngineInv (pending 0x10100000 gadState) ∧ ∃ t, after .engine (pending 0x10100000 gadState) = .next t ∧ t.done = true :=
  ⟨by decide +kernel, exists_next (by decide +kernel)⟩
/-- For CommandEndsWithDoneOrErr, of a command that ends in an error. -/
theorem witness_command_fails :
    EngineInv (pending 0x01301000 errState) ∧ ∃ t, after .engine (pending 0x01301000 errState) = .next t ∧ t.err = true :=
  ⟨by decide +kernel, exists_next (by decide +kernel)⟩
/-- For CommandsKeepHostRegisters, CommandsStoreCanonicalResidues. -/
theorem witness_command_stores :
    ∃ t, exec (.mneg 0 0) matAB = .next t ∧ matAB.params.Legal ∧ matAB.pm.wf = true ∧
      (t.pm.read 0 ≠ matAB.pm.read 0 ∧ t.pm.read 0 = some 15) := exists_next (by decide +kernel)
/-- For OnlyChkskWritesChk. -/
theorem witness_chk_changes : ∃ t, exec (.chksk 0 1) (chkState 10) = .next t ∧ t.chk ≠ (chkState 10).chk :=
  exists_next (by decide +kernel)
/-- For FlattenedResultsAreBits, each of the five commands. -/
theorem witness_flattened_results :
    (∃ t, exec (.enc 3 0 1 2) encState = .next t ∧ encState.pm.wf = true ∧ encState.err = false ∧ t.err = false) ∧
      (∃ t, exec (.hmc 2 0 1) hmcState = .next t ∧ hmcState.pm.wf = true ∧ hmcState.err = false ∧ t.err = false) ∧
      (∃ t, exec (.hadd 2 0 0) hmcState = .next t ∧ hmcState.pm.wf = true ∧ hmcState.err = false ∧ t.err = false) ∧
      (∃ t, exec (.flat 2 0) gad4 = .next t ∧ gad4.pm.wf = true ∧ gad4.err = false ∧ t.err = false) ∧
      ∃ t, exec (.bdec 1 0) gadState = .next t ∧ gadState.pm.wf = true ∧ gadState.err = false ∧ t.err = false :=
  ⟨exists_next (by decide +kernel), exists_next (by decide +kernel), exists_next (by decide +kernel),
    exists_next (by decide +kernel), exists_next (by decide +kernel)⟩
/-- For CommandsLeaveTailWordsAlone: n = 2, NMAX = 4, the first and the last tail word. -/
theorem witness_tail_words :
    ∃ t, exec (.mident 1 0) midentState = .next t ∧ midentState.pm.wf = true ∧ midentState.ring.n ≤ 2 ∧
      3 < midentState.params.nmax ∧ (t.pm.read 4).isSome = true := exists_next (by decide +kernel)
/-- For TailWordsDoNotInfluenceCommands: the two states differ in words 2 and 3 of slot 0, and in no word below n. -/
theorem witness_tail_difference :
    midentState.pm.wf = true ∧ (memory [[3,1,7,7]]).wf = true ∧
      SameButPm midentState { midentState with pm := memory [[3,1,7,7]] } ∧
      SameElements midentState { midentState with pm := memory [[3,1,7,7]] } ∧
      midentState.pm ≠ memory [[3,1,7,7]] := by
  refine ⟨by decide, by decide, rfl, fun slot x hx => ?_, by decide⟩
  have hx : x < 2 := hx
  simp only [State.pmWord, wordAddr, Memory.read]
  show readCells [(0, 3), (1, 1)] (slot * 4 + x) = readCells [(0, 3), (1, 1), (2, 7), (3, 7)] (slot * 4 + x)
  cases slot with
  | zero => interval_cases x <;> decide
  | succ m => simp only [readCells]; repeat (first | rw [if_neg (by omega)] | rfl)

/-- For PmdataWriteRule, each clause: a command is pending; the first slot and the first coefficient that PM does not have;
the last word PM has. -/
theorem witness_pmdata_write :
    matAB.pm.wf = true ∧ ({ matAB with pend := some 0 } : State).pend ≠ none ∧
      matAB.params.slots ≤ portSlot { matAB with pmaddr := 0x00400000 } ∧
      2 ^ matAB.params.lognMax ≤ portCoef { matAB with pmaddr := 0x003F0004 } ∧
      ¬ (matAB.params.slots ≤ portSlot { matAB with pmaddr := 0x003F0003 } ∨
          2 ^ matAB.params.lognMax ≤ portCoef { matAB with pmaddr := 0x003F0003 }) := by decide +kernel
/-- For PmdataReadRule, its last clause: a written word, and an unwritten one. -/
theorem witness_pmdata_read :
    matAB.pmWord (portSlot { matAB with pmaddr := 0x00070003 }) (portCoef { matAB with pmaddr := 0x00070003 }) = some 0 ∧
      matAB.pmWord (portSlot { matAB with pmaddr := 0x00080000 }) (portCoef { matAB with pmaddr := 0x00080000 }) = none := by
  decide +kernel
/-- For CfgWriteStoresAndChecks: the largest legal values, and values one above and below the limits. -/
theorem witness_cfg_values :
    ValidCfg Config.reference 0xA20 ∧ ValidCfg Config.reference 0x101 ∧ ¬ ValidCfg Config.reference 0xA21 ∧
      ¬ ValidCfg Config.reference 0xB20 ∧ ¬ ValidCfg Config.reference 0x100 ∧ ¬ ValidCfg Config.reference 0x001 := by
  decide
/-- For ConstantRegistersRead: the reference implementation, and the largest and the smallest legal one. -/
theorem witness_legal_params :
    Config.reference.Legal ∧ (⟨32, 15, 65536, true, 0xFFFFFF00⟩ : Config.Params).Legal ∧
      (⟨1, 1, 1, false, 0⟩ : Config.Params).Legal := by decide
/-- For BadAccessesSetAerr, each clause at its bounds. -/
theorem witness_bad_accesses :
    (0x000 < 0x100 ∧ 2 ≠ 4) ∧ (0x0FF < 0x100 ∧ 0x0FF % 4 ≠ 0) ∧ (0x02C ≤ 0x02C ∧ 0x02C < 0x040) ∧
      (0x02C ≤ 0x03C ∧ 0x03C < 0x040) ∧ 0x080 ≤ 0x080 ∧ (0x080 ≤ 0x0FC ∧ 0x0FC < 0x100) := by decide
/-- For AccessOutsideWindowIsRefused: the last address below the window and the first one above it. -/
theorem witness_outside_window :
    0xFFF < matAB.params.hostBase ∧ matAB.params.hostBase + 0x100 ≤ 0x1100 := by decide
/-- For PendingCommandsOperandsAreFrozen: a dropped CFG write. -/
theorem witness_pending_access :
    ∃ t, after (.host (.write 0x1010 4 0x104)) { matAB with pend := some 0 } = .next t ∧
      ({ matAB with pend := some 0 } : State).pend ≠ none ∧ t.pend ≠ none := exists_next (by decide +kernel)
/-- For SoftResetDrawsTheAbandonedRegion, each clause: nothing pending; a command with a valid destination pending; one
without. -/
theorem witness_soft_reset :
    (∃ t, after (hostWrite gadState 0x020 1) gadState = .next t ∧ gadState.pm.wf = true ∧
        (1 : Word).getLsbD 0 = true ∧ gadState.pend = none) ∧
      (∃ t, after (hostWrite gadState 0x020 1) { gadState with pend := some 0x10100000 } = .next t ∧
        opcodeHasDest (opcOf 0x10100000) = true ∧ ValidDesc gadState (mdOf 0x10100000) ∧ t.draws = 16) ∧
      ∃ t, after (hostWrite gadState 0x020 1) { gadState with pend := some 0x26000000 } = .next t ∧
        opcodeHasDest (opcOf 0x26000000) = false ∧ t.draws = 0 :=
  ⟨exists_next (by decide +kernel), exists_next (by decide +kernel), exists_next (by decide +kernel)⟩
/-- For AfterResetOnlyNopCompletes. -/
theorem witness_after_reset :
    (∃ t, after .powerOn matAB = .next t ∧ t.cfg = 0) ∧
      ∃ t, after (hostWrite matAB 0x020 1) matAB = .next t ∧ (1 : Word).getLsbD 0 = true ∧ t.cfg = 0 :=
  ⟨exists_next (by decide +kernel), exists_next (by decide +kernel)⟩
/-- A configured state with a command pending, and the engine's turn next. -/
def turnState : State := { pending 0x10100000 gadState with schedule := [.engine] }

/-- For StepKeepsInvariant: the state steps to another one. -/
theorem witness_invariant_step : EngineInv turnState ∧ ∃ t, step turnState = .next t ∧ t.pm ≠ gadState.pm :=
  ⟨by decide +kernel, exists_next (by decide +kernel)⟩
/-- For PendingCommandEndsOnlyUnderWeakFairness, its first two clauses: a command pending and no event left. -/
theorem witness_stuck_command :
    (pending 0x10100000 gadState).schedule = [] ∧ (pending 0x10100000 gadState).pend ≠ none := by decide
/-- For PendingCommandEndsOnlyUnderWeakFairness, its last clauses: polls and turns of the engine by turns. -/
theorem witness_fair_polling :
    WeaklyFair (fun j => if j % 2 = 1 then .engine else hostRead gadState 0x014) (pending 0x10100000 gadState) ∧
      (pending 0x10100000 gadState).pend ≠ none ∧
      ∀ j, (fun j => if j % 2 = 1 then Event.engine else hostRead gadState 0x014) j = .engine ∨
        (fun j => if j % 2 = 1 then Event.engine else hostRead gadState 0x014) j =
          hostRead (pending 0x10100000 gadState) 0x014 := by
  refine ⟨fun m _ => ⟨2 * m + 1, by omega, if_pos (by omega)⟩, by decide, fun j => ?_⟩
  by_cases h : j % 2 = 1
  · exact .inl (if_pos h)
  · exact .inr (if_neg h)
/-- 93_implementation_defined.md I9: with no event left a pending command stays pending. -/
theorem test_stuck_without_turn :
    nextWith (step (pending 0x10100000 gadState)) (fun t => t = pending 0x10100000 gadState) = true := by decide +kernel
/-- For GadgetInverseAndFixedPoints and FlattenPreservesProductsWithPowers: q = 4, n = 2. -/
theorem witness_gadget :
    1 ≤ (⟨2, 2⟩ : RingCtx).k ∧ (matOf 1 2 fun _ _ => [3, 1]).coef 0 1 0 < (⟨2, 2⟩ : RingCtx).q ∧
      (⟨2, 2⟩ : RingCtx).k ∣ (matOf 1 2 fun _ _ => [3, 1]).cols ∧
      (matOf 1 2 fun _ _ => [3, 1]).cols = (matOf 1 1 fun _ _ => [3, 1]).cols * (⟨2, 2⟩ : RingCtx).k := by decide
/-- For DecoderToleratesNoiseBelowQuarter: q = 16, μ = 15, the largest noise of either sign; in the second part no level
wraps. -/
theorem witness_decoder_noise :
    (∀ j < 4, 4 * (if j = 0 then (3 : Int) else -3) < 16 ∧ -16 < 4 * (if j = 0 then (3 : Int) else -3)) ∧
      ∀ j < 4, ((5 % 2 ^ (4 - j) * 2 ^ j : Nat) : Int) + (if j = 0 then (3 : Int) else -3) < 16 := by decide
/-- For DecryptionUndoesEncryption: q = 16, n = 2, the drawn rows all 1, the key noise (3, -3). -/
theorem witness_decryption :
    (matOf 8 1 fun _ _ => [1, 0]).rows = 2 * (⟨4, 2⟩ : RingCtx).k ∧ (matOf 8 1 fun _ _ => [1, 0]).cols = 1 ∧
      (∀ x < 2, coeff [15, 5] x < 16) ∧
      ∀ j < 4, ∀ x < 2,
        4 * coeff (polyMul ⟨4, 2⟩ ((matOf 8 1 fun _ _ => [1, 0]).get j 0) [3, 13]) x < 16 ∨
          3 * 16 < 4 * coeff (polyMul ⟨4, 2⟩ ((matOf 8 1 fun _ _ => [1, 0]).get j 0) [3, 13]) x := by decide +kernel

end Sys2Proof.Tests
end

section
/-! PROOFS. The two resets and the invariant of the machine (10_state.md rule R43, 70_reset_and_hazards.md rules R231,
R233): whatever the registers held, they meet their parts of the invariant once reset, so only PM is left to show. -/

namespace Sys2Proof.Machine

/-- The reference configuration lies in the ranges of rule R7. -/
theorem reference_legal : Config.reference.Legal := by decide

/-! ## The parts of the invariant after a reset of the registers -/

theorem resetRegisters_cfgInv (s : State) : CfgInv (resetRegisters s) := by simp [CfgInv]

theorem resetRegisters_causeInv (s : State) : CauseInv (resetRegisters s) := by simp [CauseInv]

theorem resetRegisters_pendInv (s : State) : PendInv (resetRegisters s) := by simp [PendInv]

/-- PM is the one part of the state a reset of the registers leaves as it was, so its invariant is a premise. -/
theorem resetRegisters_engineInv {s : State} (hp : s.params.Legal) (hm : PmInv s) : EngineInv (resetRegisters s) :=
  ⟨hp, hm, resetRegisters_cfgInv s, resetRegisters_causeInv s, resetRegisters_pendInv s⟩

/-! ## Power-on reset -/

/-- A PM that nothing has written is canonical and within its bounds. -/
theorem pmInv_of_unwritten {s : State} (h : s.pm = ⟨[]⟩) : PmInv s := by
  constructor
  · rw [h]; rfl
  · simp [h]

/-- Power-on reset establishes the invariant from every state with legal parameters, in whatever state the registers and
PM were. -/
theorem powerOnReset_engineInv {s : State} (hp : s.params.Legal) : EngineInv (powerOnReset s) :=
  resetRegisters_engineInv (s := { s with pm := ⟨[]⟩ }) hp (pmInv_of_unwritten rfl)

/-- The reset state is what power-on reset makes of itself. -/
theorem powerOnReset_reset : powerOnReset State.reset = State.reset := rfl

/-- Settles O54: the reset state is a power-on reset in the reference configuration, whose parameters are legal. -/
theorem resetHasInvariant : Obligations.ResetHasInvariant := by
  unfold Obligations.ResetHasInvariant
  rw [← powerOnReset_reset]
  exact powerOnReset_engineInv reference_legal

end Sys2Proof.Machine
end
section
/-! PROOFS. The decoder arm by arm (30_encoding.md rules R93, R94, R96): what it makes of a word whose opcode is in the
table, and that it refuses every other opcode. -/

namespace Sys2Proof

/-- The must-be-zero fields of a word's command are 0 (rule R94, second and third part). -/
def zerosHold (w : Word) : Bool := (rawOf w).reservedZero && (rawOf w).unusedZero

/-- The shape of the decoder's answer d to a word with an opcode of the table: a command under the guard that the
must-be-zero fields are 0, and then w is its encoding. -/
def GuardedArm (w : Word) (d : Except DecodeError Instr) : Prop :=
  (rawOf w).opcodeDefined = true ∧ ∃ i, d = decodeIf (zerosHold w) i ∧ (zerosHold w = true → encode i = w)

/-- A word with the fields of a command is its encoding. -/
theorem encode_eq_of_fields {i : Instr} {w : Word} (h : i.fields = rawOf w) : encode i = w := by
  rw [encode, h, packWord_rawOf]

/-- The must-be-zero fields of a word whose opcode has the row u of the table. -/
theorem zerosHold_eq {w : Word} {u : FieldUse} (h : fieldUse (opcOf w) = some u) :
    zerosHold w = (rsvOf w == 0 && ((u.md || mdOf w == 0) && (u.ms1 || ms1Of w == 0) && (u.ms2 || ms2Of w == 0) &&
      (u.ms3 || ms3Of w == 0))) := by
  simp [zerosHold, RawCommand.reservedZero, RawCommand.unusedZero, rawOf, h]

section arms

variable {w : Word} {o : Nat} (ho : (opcOf w).toNat = o)
include ho

theorem opcOf_eq_ofNat : opcOf w = BitVec.ofNat 8 o := by rw [← ho, BitVec.ofNat_toNat, BitVec.setWidth_eq]

/-- An arm whose guard says that the fields its opcode does not use are 0. -/
theorem guardedArm_of_row {u : FieldUse} (hu : fieldUse (BitVec.ofNat 8 o) = some u) {z : Bool} {i : Instr}
    (hz : z = (rsvOf w == 0 && ((u.md || mdOf w == 0) && (u.ms1 || ms1Of w == 0) && (u.ms2 || ms2Of w == 0) &&
      (u.ms3 || ms3Of w == 0))))
    (hi : z = true → i.fields = rawOf w) : GuardedArm w (decodeIf z i) := by
  have hrow : fieldUse (opcOf w) = some u := by rw [opcOf_eq_ofNat ho, hu]
  rw [← zerosHold_eq hrow] at hz
  subst hz
  exact ⟨by simp [RawCommand.opcodeDefined, rawOf, hrow], i, rfl, fun h => encode_eq_of_fields (hi h)⟩

theorem guardedArm_unary {f : Idx → Idx → Instr} (hu : fieldUse (BitVec.ofNat 8 o) = some ⟨true, true, false, false⟩)
    (hf : ∀ d a, (f d a).fields = ⟨BitVec.ofNat 8 o, d, a, 0, 0, 0⟩) : GuardedArm w (decodeUnary w f) := by
  refine guardedArm_of_row ho hu ?_ fun hz => decodeUnary_fields hf ho ?_
  · simp [Bool.and_comm]
  · rw [decodeUnary, hz]; rfl

theorem guardedArm_binary {f : Idx → Idx → Idx → Instr}
    (hu : fieldUse (BitVec.ofNat 8 o) = some ⟨true, true, true, false⟩)
    (hf : ∀ d a b, (f d a b).fields = ⟨BitVec.ofNat 8 o, d, a, b, 0, 0⟩) : GuardedArm w (decodeBinary w f) := by
  refine guardedArm_of_row ho hu ?_ fun hz => decodeBinary_fields hf ho ?_
  · simp [Bool.and_comm]
  · rw [decodeBinary, hz]; rfl

end arms

/-- An opcode whose number the table does not list has no row. -/
theorem fieldUse_eq_none : ∀ o : Opcode, o.toNat ∉ fieldUses.map (·.1.toNat) → fieldUse o = none := by decide

/-- The decoder on a word whose opcode is in the table, and on any other (rule R96). -/
theorem decode_cases (w : Word) :
    GuardedArm w (decode w) ∨ (rawOf w).opcodeDefined = false ∧ decode w = .error .illegalOpcode := by
  unfold decode
  split
  case h_1 ho =>
    refine .inl (guardedArm_of_row ho rfl ?_ fun hz => ?_)
    · simp [Bool.and_comm, Bool.and_assoc]
    · simp only [Bool.and_eq_true, beq_iff_eq] at hz
      obtain ⟨⟨⟨⟨hmd, hms1⟩, hms2⟩, hms3⟩, hrsv⟩ := hz
      simp [rawOf, hmd, hms1, hms2, hms3, hrsv, Instr.fields, Instr.opcode, opcOf_eq_ofNat ho]
  case h_16 ho =>
    refine .inl (guardedArm_of_row ho rfl ?_ fun hz => ?_)
    · simp
    · rw [beq_iff_eq] at hz
      simp [rawOf, hz, Instr.fields, Instr.opcode, opcOf_eq_ofNat ho]
  case h_20 ho =>
    refine .inl (guardedArm_of_row ho rfl ?_ fun hz => ?_)
    · simp [Bool.and_comm, Bool.and_assoc]
    · simp only [Bool.and_eq_true, beq_iff_eq] at hz
      obtain ⟨⟨hmd, hms3⟩, hrsv⟩ := hz
      simp [rawOf, hmd, hms3, hrsv, Instr.fields, Instr.opcode, opcOf_eq_ofNat ho]
  case h_21 =>
    have hrow : fieldUse (opcOf w) = none := fieldUse_eq_none _ (by simp [fieldUses]; and_intros <;> assumption)
    exact .inr ⟨by simp [RawCommand.opcodeDefined, rawOf, hrow], rfl⟩
  case h_2 ho | h_3 ho | h_5 ho | h_6 ho | h_17 ho | h_18 ho | h_19 ho =>
    exact .inl (guardedArm_binary ho rfl fun _ _ _ => rfl)
  all_goals exact .inl (guardedArm_unary ‹_› rfl fun _ _ => rfl)

/-! ## The three answers of the decoder -/

theorem decode_of_undefined {w : Word} (h : (rawOf w).opcodeDefined = false) : decode w = .error .illegalOpcode := by
  rcases decode_cases w with ⟨hdef, -⟩ | ⟨-, hd⟩
  · rw [h] at hdef; cases hdef
  · exact hd

theorem decode_of_nonzero {w : Word} (h : (rawOf w).opcodeDefined = true) (hz : zerosHold w = false) :
    decode w = .error .reservedField := by
  rcases decode_cases w with ⟨-, i, hd, -⟩ | ⟨hundef, -⟩
  · rw [hd, hz]; rfl
  · rw [h] at hundef; cases hundef

theorem decode_of_wellFormed {w : Word} (h : (rawOf w).opcodeDefined = true) (hz : zerosHold w = true) :
    ∃ i, decode w = .ok i ∧ encode i = w := by
  rcases decode_cases w with ⟨-, i, hd, hw⟩ | ⟨hundef, -⟩
  · exact ⟨i, by rw [hd, hz]; rfl, hw hz⟩
  · rw [h] at hundef; cases hundef

/-- The opcode field of a command's encoding. -/
theorem opcOf_encode_eq_opcode (i : Instr) : opcOf (encode i) = i.opcode := by
  rw [opcOf_encode]
  cases i <;> rfl

end Sys2Proof
end

section
/-! PROOFS. Canonical elements and matrices (00_scope.md rules R10, R11): every coefficient below q. Each ring, gadget
and ciphertext operation answers a canonical result, so a command stores canonical residues only (20_memory.md rule
R64). -/

namespace Sys2Proof.Machine

/-- Every coefficient of the element is below q. -/
def CanonicalElem (R : RingCtx) (p : Elem) : Prop := ∀ t, coeff p t < R.q

/-- Every coefficient of every element of the matrix is below q. -/
def CanonicalMat (R : RingCtx) (M : Mat) : Prop := ∀ i j, CanonicalElem R (M.get i j)

variable {R : RingCtx}

/-! ## Elements -/

theorem canonicalElem_nil : CanonicalElem R [] := fun _ => R.q_pos

theorem canonicalElem_elemOf {n : Nat} {f : Nat → Nat} (h : ∀ t, f t < R.q) : CanonicalElem R (elemOf n f) := by
  intro t
  by_cases ht : t < n
  · rw [coeff_elemOf f ht]; exact h t
  · rw [coeff_elemOf_ge f (by omega)]; exact R.q_pos

theorem canonicalElem_polyMul (a b : Elem) : CanonicalElem R (polyMul R a b) :=
  canonicalElem_elemOf fun _ => modq_lt R _

theorem canonicalElem_polyAdd (a b : Elem) : CanonicalElem R (polyAdd R a b) :=
  canonicalElem_elemOf fun _ => modq_lt R _

theorem canonicalElem_polySub (a b : Elem) : CanonicalElem R (polySub R a b) :=
  canonicalElem_elemOf fun _ => modq_lt R _

theorem canonicalElem_polyNeg (a : Elem) : CanonicalElem R (polyNeg R a) :=
  canonicalElem_elemOf fun _ => modq_lt R _

theorem canonicalElem_zeroElem : CanonicalElem R (zeroElem R) := canonicalElem_elemOf fun _ => R.q_pos

theorem canonicalElem_elemSum (m : Nat) (f : Nat → Elem) : CanonicalElem R (elemSum R m f) := by
  cases m with
  | zero => exact canonicalElem_zeroElem
  | succ m => exact canonicalElem_polyAdd _ _

/-! ## Matrices -/

/-- The elements of a matrix built by `matOf`, and the empty element elsewhere. -/
theorem get_matOf_cases (r c : Nat) (f : Nat → Nat → Elem) (i j : Nat) :
    (matOf r c f).get i j = f i j ∨ (matOf r c f).get i j = [] := by
  by_cases hi : i < r
  · by_cases hj : j < c
    · exact .inl (get_matOf f hi hj)
    · exact .inr (by simp [Mat.get, matOf, List.getD, hi, hj])
  · exact .inr (by simp [Mat.get, matOf, List.getD, hi])

theorem canonicalMat_matOf {r c : Nat} {f : Nat → Nat → Elem} (h : ∀ i j, CanonicalElem R (f i j)) :
    CanonicalMat R (matOf r c f) := by
  intro i j
  rcases get_matOf_cases r c f i j with e | e <;> rw [e]
  · exact h i j
  · exact canonicalElem_nil

theorem canonicalMat_matOfCoefs {r c n : Nat} {f : Nat → Nat → Nat → Nat} (h : ∀ i j t, f i j t < R.q) :
    CanonicalMat R (matOfCoefs r c n f) :=
  canonicalMat_matOf fun i j => canonicalElem_elemOf (h i j)

/-- A fetched operand is canonical: each word has gone through the modular reducer (20_memory.md rule R63). -/
theorem canonicalMat_operand (s : State) (d : Word) : CanonicalMat s.ring (operand s d) :=
  canonicalMat_matOfCoefs fun _ _ _ => modq_lt s.ring _

theorem canonicalMat_madd (A B : Mat) : CanonicalMat R (madd R A B) :=
  canonicalMat_matOf fun _ _ => canonicalElem_polyAdd _ _

theorem canonicalMat_msub (A B : Mat) : CanonicalMat R (msub R A B) :=
  canonicalMat_matOf fun _ _ => canonicalElem_polySub _ _

theorem canonicalMat_mneg (A : Mat) : CanonicalMat R (mneg R A) :=
  canonicalMat_matOf fun _ _ => canonicalElem_polyNeg _

theorem canonicalMat_mmul (A B : Mat) : CanonicalMat R (mmul R A B) :=
  canonicalMat_matOf fun _ _ => canonicalElem_elemSum _ _

theorem canonicalMat_mscale (g : Elem) (A : Mat) : CanonicalMat R (mscale R g A) :=
  canonicalMat_matOf fun _ _ => canonicalElem_polyMul _ _

theorem canonicalMat_ident {g : Elem} (hg : CanonicalElem R g) : CanonicalMat R (ident R g) := by
  refine canonicalMat_matOf fun i j => ?_
  split
  · exact hg
  · exact canonicalElem_zeroElem

theorem canonicalMat_transpose {A : Mat} (hA : CanonicalMat R A) : CanonicalMat R (transpose A) :=
  canonicalMat_matOf fun i j => hA j i

theorem canonicalMat_pow2 (M : Mat) : CanonicalMat R (pow2 R M) := canonicalMat_matOfCoefs fun _ _ _ => modq_lt R _

theorem canonicalMat_bdinv (M : Mat) : CanonicalMat R (bdinv R M) := canonicalMat_matOfCoefs fun _ _ _ => modq_lt R _

/-- A modulus of at least one bit has room for the residues 0 and 1. -/
theorem two_le_q (hk : 1 ≤ R.k) : 2 ≤ R.q := Nat.le_self_pow (by omega) 2

theorem canonicalMat_bdec (hk : 1 ≤ R.k) (M : Mat) : CanonicalMat R (bdec R M) :=
  canonicalMat_matOfCoefs fun _ _ _ => (bitOf_lt_two _ _).trans_le (two_le_q hk)

theorem canonicalMat_flat (hk : 1 ≤ R.k) (M : Mat) : CanonicalMat R (flat R M) := canonicalMat_bdec hk _

theorem canonicalMat_secretKey (t : Elem) : CanonicalMat R (secretKey R t) :=
  canonicalMat_transpose (canonicalMat_pow2 _)

theorem canonicalMat_publicKey {b1 : Elem} (t e : Elem) (hb : CanonicalElem R b1) :
    CanonicalMat R (publicKey R t b1 e) := by
  refine canonicalMat_matOf fun i j => ?_
  split
  · exact canonicalElem_polyAdd _ _
  · exact hb

/-- Level j of the decoder settles bit k-1-j, above all bits that are known so far (42_gsw.md rule R166). -/
theorem decodeLevels_lt (reduce : Bool) (v : Nat → Nat) {j z : Nat} (hj : j ≤ R.k) (hz : z < 2 ^ (R.k - j)) :
    decodeLevels R reduce v j z < R.q := by
  induction j generalizing z with
  | zero => exact hz
  | succ j ih =>
    have hbit : 2 ^ (R.k - j) = 2 ^ (R.k - 1 - j) + 2 ^ (R.k - 1 - j) := by
      rw [← Nat.two_mul, ← Nat.pow_succ']
      congr 1
      omega
    have hz' : z < 2 ^ (R.k - 1 - j) := by rwa [Nat.sub_sub, Nat.add_comm 1 j]
    refine ih (by omega) ?_
    split_ifs <;> omega

theorem canonicalMat_decrypt (reduce : Bool) (C SK : Mat) : CanonicalMat R (decrypt R reduce C SK) :=
  canonicalMat_matOf fun _ _ => canonicalElem_elemOf fun _ => decodeLevels_lt reduce _ le_rfl (by simp)

end Sys2Proof.Machine
end

section
/-! PROOFS. What a command does, said once (60_exceptions.md rule R205): one equation for each check that can fail and
one for each way its rule can end, and from them everything a command or a turn of the engine can answer. -/

namespace Sys2Proof.Machine

open Sys2Proof.Spec

/-! ## The checks, in the terms of the claims -/

theorem cfgValid_iff (p : Config.Params) (v : Word) : cfgValid p v = true ↔ ValidCfg p v := by
  simp only [cfgValid, Bool.and_eq_true, decide_eq_true_eq, and_assoc]
  exact Iff.rfl

theorem cfgOk_iff (s : State) : s.cfgOk = true ↔ ValidCfg s.params s.cfg := cfgValid_iff _ _

theorem descValid_iff (s : State) (i : Idx) : descValid s.params (s.desc i) = true ↔ ValidDesc s i := by
  simp only [descValid, Bool.and_eq_true, decide_eq_true_eq, and_assoc]
  exact Iff.rfl

theorem descIs_iff {s : State} {i : Idx} {r c : Nat} : descIs (s.desc i) r c = true ↔ HasShape s i r c := by
  simp only [descIs, Bool.and_eq_true, beq_iff_eq]
  exact Iff.rfl

/-- Two checks hold when what each of them says does. -/
theorem check_and {a b : Bool} {p q : Prop} (ha : a = true ↔ p) (hb : b = true ↔ q) : (a && b) = true ↔ p ∧ q := by
  rw [Bool.and_eq_true, ha, hb]

/-- The used operand fields of a command, in the order the engine checks them. -/
def operandFields : Instr → List (OperandField × Idx)
  | .nop => []
  | .madd d a b | .msub d a b | .mmul d a b | .mscale d a b => [(.ms1, a), (.ms2, b), (.md, d)]
  | .dec d a b | .hmc d a b | .hadd d a b => [(.ms1, a), (.ms2, b), (.md, d)]
  | .mneg d a | .mident d a | .mcopy d a | .mtrans d a => [(.ms1, a), (.md, d)]
  | .pow2 d a | .bdec d a | .bdinv d a | .flat d a | .skgen d a | .pkgen d a => [(.ms1, a), (.md, d)]
  | .enc d a b c => [(.ms1, a), (.ms2, b), (.ms3, c), (.md, d)]
  | .chksk a b => [(.ms1, a), (.ms2, b)]

/-- They are the used fields of the claims, by their numbers in CAUSE.OPND (10_state.md rule R29). -/
theorem usedFields_eq_map (i : Instr) : usedFields i = (operandFields i).map fun u => (u.1.opnd, u.2) := by
  cases i <;> rfl

/-- Every used descriptor is valid exactly when the engine's search finds no invalid one. -/
theorem usedFields_valid_iff (s : State) (i : Instr) :
    (∀ u ∈ usedFields i, ValidDesc s u.2) ↔ firstInvalid s (operandFields i) = none := by
  simp only [firstInvalid_none, descValid_iff, usedFields_eq_map, List.forall_mem_map]

/-- The search answers the first field with an invalid descriptor. -/
theorem firstInvalid_eq_some {s : State} {used : List (OperandField × Idx)} {f : OperandField}
    (h : firstInvalid s used = some f) :
    ∃ earlier i later, used = earlier ++ (f, i) :: later ∧ (∀ e ∈ earlier, ValidDesc s e.2) ∧ ¬ ValidDesc s i := by
  induction used with
  | nil => cases h
  | cons u rest ih =>
    obtain ⟨g, i⟩ := u
    rw [firstInvalid] at h
    split at h
    · rename_i hv
      obtain ⟨earlier, j, later, rfl, he, hj⟩ := ih h
      exact ⟨(g, i) :: earlier, j, later, rfl, List.forall_mem_cons.2 ⟨(descValid_iff s i).1 hv, he⟩, hj⟩
    · rename_i hv
      cases h
      exact ⟨[], i, rest, rfl, by simp, fun hi => hv ((descValid_iff s i).2 hi)⟩

/-! ## The rule of a command -/

/-- The rule p of a command reads the matrices of js: with every word written it answers a state with the property Q,
and otherwise it ends in the model's fault (10_state.md rule R41). -/
def Reads (s : State) (js : List Idx) (Q : State → Prop) (p : Except Fault State) : Prop :=
  ((∀ j ∈ js, Written s j) → ∃ t, p = .ok t ∧ Q t) ∧ ((¬ ∀ j ∈ js, Written s j) → p = .error .unwrittenWord)

theorem reads_nil {s t : State} {Q : State → Prop} (h : Q t) : Reads s [] Q (pure t) :=
  ⟨fun _ => ⟨t, rfl, h⟩, fun hn => absurd (by simp) hn⟩

theorem reads_cons {s : State} {j : Idx} {js : List Idx} {Q : State → Prop} {g : Mat → Except Fault State}
    (h : Reads s js Q (g (operand s (s.desc j)))) : Reads s (j :: js) Q (fetch s (s.desc j) >>= g) := by
  obtain ⟨hok, herr⟩ := h
  rw [Reads, List.forall_mem_cons, ← fetchable_iff_written]
  rcases fetch_bind s (s.desc j) g with ⟨hf, e⟩ | ⟨hf, e⟩ <;> rw [e, hf]
  · exact ⟨fun hw => hok hw.2, fun hw => herr fun hjs => hw ⟨rfl, hjs⟩⟩
  · exact ⟨fun hw => absurd hw.1 (by decide), fun _ => rfl⟩

/-- What the rule of command i does to the state: it stores a canonical matrix through MD, or sets the band flag. -/
def Result (i : Instr) (s t : State) : Prop :=
  (∃ d M, (.md, d) ∈ operandFields i ∧ CanonicalMat s.ring M ∧ t = store (s.desc d) M s) ∨
    ∃ b ms1 ms2, i = .chksk ms1 ms2 ∧ t = { s with chk := b }

theorem Result.err_eq {i : Instr} {s t : State} (h : Result i s t) : t.err = s.err := by
  rcases h with ⟨d, M, -, -, rfl⟩ | ⟨b, ms1, ms2, -, rfl⟩ <;> rfl

theorem reads_store {i : Instr} {s : State} {d : Idx} {M : Mat} (hM : CanonicalMat s.ring M)
    (hd : (.md, d) ∈ operandFields i := by simp [operandFields]) :
    Reads s [] (Result i s) (pure (store (s.desc d) M s)) :=
  reads_nil (.inl ⟨d, M, hd, hM, rfl⟩)

/-- A group of k columns for each column, by the quotient as the engine checks it or by the product as the table of
30_encoding.md rule R93 has it. -/
theorem mod_eq_zero_and_div_eq_iff {k a d : Nat} (hk : 1 ≤ k) : a % k = 0 ∧ d = a / k ↔ d * k = a := by
  constructor
  · rintro ⟨hmod, rfl⟩
    exact Nat.div_mul_cancel (Nat.dvd_of_mod_eq_zero hmod)
  · rintro rfl
    exact ⟨Nat.mul_mod_left d k, (Nat.mul_div_cancel d hk).symm⟩

/-- Every command but NOP is its checks followed by its rule: the shape check says what the table's column shape
requires, and the rule reads the sources. -/
theorem exec_eq_checks {i : Instr} {s : State} (hi : i ≠ .nop) (hk : 1 ≤ s.ring.k) :
    ∃ ok p, exec i s = runCommand i.opcode (operandFields i) ok p s ∧ (ok = true ↔ Shapes s i) ∧
      Reads s (sources i) (Result i s) p := by
  cases i with
  | nop => exact absurd rfl hi
  | madd d a b =>
    exact ⟨_, _, rfl, check_and descIs_iff descIs_iff, reads_cons (reads_cons (reads_store (canonicalMat_madd _ _)))⟩
  | msub d a b =>
    exact ⟨_, _, rfl, check_and descIs_iff descIs_iff, reads_cons (reads_cons (reads_store (canonicalMat_msub _ _)))⟩
  | mneg d a => exact ⟨_, _, rfl, descIs_iff, reads_cons (reads_store (canonicalMat_mneg _))⟩
  | mmul d a b =>
    exact ⟨_, _, rfl, check_and beq_iff_eq descIs_iff, reads_cons (reads_cons (reads_store (canonicalMat_mmul _ _)))⟩
  | mscale d a b =>
    exact ⟨_, _, rfl, check_and descIs_iff descIs_iff, reads_cons (reads_cons (reads_store (canonicalMat_mscale _ _)))⟩
  | mident d a =>
    exact ⟨_, _, rfl, check_and descIs_iff descIs_iff,
      reads_cons (reads_store (canonicalMat_ident (canonicalMat_operand _ _ _ _)))⟩
  | mcopy d a => exact ⟨_, _, rfl, descIs_iff, reads_cons (reads_store (canonicalMat_operand _ _))⟩
  | mtrans d a =>
    exact ⟨_, _, rfl, descIs_iff, reads_cons (reads_store (canonicalMat_transpose (canonicalMat_operand _ _)))⟩
  | pow2 d a => exact ⟨_, _, rfl, descIs_iff, reads_cons (reads_store (canonicalMat_pow2 _))⟩
  | bdec d a => exact ⟨_, _, rfl, descIs_iff, reads_cons (reads_store (canonicalMat_bdec hk _))⟩
  | bdinv d a =>
    refine ⟨_, _, rfl, ?_, reads_cons (reads_store (canonicalMat_bdinv _))⟩
    rw [Bool.and_eq_true, beq_iff_eq, descIs_iff, and_left_comm]
    exact and_congr_right' (mod_eq_zero_and_div_eq_iff hk)
  | flat d a =>
    exact ⟨_, _, rfl, check_and (beq_iff_eq.trans Nat.dvd_iff_mod_eq_zero.symm) descIs_iff,
      reads_cons (reads_store (canonicalMat_flat hk _))⟩
  | skgen d a => exact ⟨_, _, rfl, check_and descIs_iff descIs_iff, reads_cons (reads_store (canonicalMat_secretKey _))⟩
  | pkgen d a =>
    exact ⟨_, _, rfl, check_and descIs_iff descIs_iff,
      reads_cons (reads_store (canonicalMat_publicKey _ _ (canonicalMat_operand _ _ _ _)))⟩
  | enc d a b c =>
    refine ⟨_, _, rfl, ?_, reads_cons (reads_cons (reads_cons (reads_store (canonicalMat_flat hk _))))⟩
    simp only [Bool.and_eq_true, beq_iff_eq, descIs_iff, and_assoc]
    exact Iff.rfl
  | dec d a b =>
    exact ⟨_, _, rfl, (check_and (check_and descIs_iff descIs_iff) descIs_iff).trans and_assoc,
      reads_cons (reads_cons (reads_store (canonicalMat_decrypt _ _ _)))⟩
  | hmc d a b =>
    exact ⟨_, _, rfl, (check_and (check_and descIs_iff descIs_iff) descIs_iff).trans and_assoc,
      reads_cons (reads_cons (reads_store (canonicalMat_flat hk _)))⟩
  | hadd d a b =>
    exact ⟨_, _, rfl, (check_and (check_and descIs_iff descIs_iff) descIs_iff).trans and_assoc,
      reads_cons (reads_cons (reads_store (canonicalMat_flat hk _)))⟩
  | chksk a b =>
    exact ⟨_, _, rfl, check_and descIs_iff descIs_iff, reads_cons (reads_cons (reads_nil (.inr ⟨_, a, b, rfl, rfl⟩)))⟩

/-! ## One equation for each way a command ends (60_exceptions.md rule R205 steps 3 to 6) -/

section ends

variable {i : Instr} {s : State} (hi : i ≠ .nop)
include hi

theorem exec_not_configured (hc : s.cfgOk = false) : exec i s = .next (raiseError .notConfigured i.opcode 0 s) := by
  obtain ⟨used, ok, p, he, -⟩ := exec_eq_runCommand i s hi
  simp [he, runCommand, hc]

variable (hc : s.cfgOk = true)
include hc

theorem exec_bad_descriptor {f : OperandField} (hf : firstInvalid s (operandFields i) = some f) :
    exec i s = .next (raiseError .badDescriptor i.opcode f.opnd s) := by
  obtain ⟨ok, p, he, -⟩ := exec_eq_checks hi (ring_k_bounds hc).1
  simp [he, runCommand, hc, hf]

variable (hf : firstInvalid s (operandFields i) = none)
include hf

theorem exec_shape_mismatch (hs : ¬ Shapes s i) : exec i s = .next (raiseError .shapeMismatch i.opcode 0 s) := by
  obtain ⟨ok, p, he, hok, -⟩ := exec_eq_checks hi (ring_k_bounds hc).1
  simp [he, runCommand, hc, hf, hok, hs]

variable (hs : Shapes s i)
include hs

theorem exec_completes (hw : ∀ j ∈ sources i, Written s j) : ∃ t, Result i s t ∧ exec i s = .next (complete t) := by
  obtain ⟨ok, p, he, hok, hp, -⟩ := exec_eq_checks hi (ring_k_bounds hc).1
  obtain ⟨t, rfl, ht⟩ := hp hw
  exact ⟨t, ht, by simp [he, runCommand, hc, hf, hok, hs]⟩

theorem exec_unwritten (hw : ¬ ∀ j ∈ sources i, Written s j) : exec i s = .fault .unwrittenWord := by
  obtain ⟨ok, p, he, hok, -, hp⟩ := exec_eq_checks hi (ring_k_bounds hc).1
  simp [he, runCommand, hc, hf, hok, hs, hp hw]

end ends

/-! ## Everything a command can answer -/

/-- OPND as CAUSE holds it for an error (10_state.md rule R29): an operand field for BAD_DESCRIPTOR, 0 for every other.
-/
def OperandOfCause (c : Cause) (n : BitVec 3) : Prop :=
  if c = .badDescriptor then 1 ≤ n.toNat ∧ n.toNat ≤ 4 else n = 0

/-- The errors a command or its word can raise: every one but BAD_CONFIG, which a write of CFG records. -/
structure RaisedByEngine (c : Cause) (n : BitVec 3) : Prop where
  operand : OperandOfCause c n
  ne_badConfig : c ≠ .badConfig

theorem raisedByEngine_badDescriptor (f : OperandField) : RaisedByEngine .badDescriptor f.opnd := by
  cases f <;> exact ⟨by simp [OperandOfCause, OperandField.opnd], by decide⟩

/-- The state command i leaves when it answers one. -/
inductive Answers (i : Instr) (s : State) : State → Prop
  | nop : i = .nop → Answers i s (complete s)
  | raises {c : Cause} {n : BitVec 3} : RaisedByEngine c n → Answers i s (raiseError c i.opcode n s)
  | stores {d : Idx} {M : Mat} : s.cfgOk = true → descValid s.params (s.desc d) = true → CanonicalMat s.ring M →
      Answers i s (complete (store (s.desc d) M s))
  | checks {ms1 ms2 : Idx} (b : Bool) : i = .chksk ms1 ms2 → Answers i s (complete { s with chk := b })

/-- A completed command has answered by a store through a valid MD or by the band flag. -/
theorem answers_of_result {i : Instr} {s t : State} (hc : s.cfgOk = true)
    (hf : firstInvalid s (operandFields i) = none) (h : Result i s t) : Answers i s (complete t) := by
  rcases h with ⟨d, M, hd, hM, rfl⟩ | ⟨b, ms1, ms2, hi, rfl⟩
  · exact .stores hc (firstInvalid_none.1 hf (.md, d) hd) hM
  · exact .checks b hi

/-- A command answers a state or ends in the fault of an unwritten word. -/
theorem exec_cases (i : Instr) (s : State) :
    (∃ t, exec i s = .next t ∧ Answers i s t) ∨ exec i s = .fault .unwrittenWord := by
  by_cases hi : i = .nop
  · exact .inl ⟨complete s, by rw [hi]; rfl, .nop hi⟩
  cases hc : s.cfgOk with
  | false => exact .inl ⟨_, exec_not_configured hi hc, .raises ⟨rfl, by decide⟩⟩
  | true =>
    cases hf : firstInvalid s (operandFields i) with
    | some f => exact .inl ⟨_, exec_bad_descriptor hi hc hf, .raises (raisedByEngine_badDescriptor f)⟩
    | none =>
      by_cases hs : Shapes s i
      · by_cases hw : ∀ j ∈ sources i, Written s j
        · obtain ⟨t, ht, he⟩ := exec_completes hi hc hf hs hw
          exact .inl ⟨_, he, answers_of_result hc hf ht⟩
        · exact .inr (exec_unwritten hi hc hf hs hw)
      · exact .inl ⟨_, exec_shape_mismatch hi hc hf hs, .raises ⟨rfl, by decide⟩⟩

theorem answers_of_exec {i : Instr} {s t : State} (h : exec i s = .next t) : Answers i s t := by
  rcases exec_cases i s with ⟨u, he, hu⟩ | he <;> rw [he] at h <;> cases h
  exact hu

/-! ## A turn of the engine -/

theorem engineTurn_idle {s : State} (h : s.pend = none) : engineTurn s = .next s := by simp [engineTurn, h]

theorem engineTurn_of_ok {s : State} {w : Word} {i : Instr} (hw : s.pend = some w) (hd : decode w = .ok i) :
    engineTurn s = exec i s := by simp [engineTurn, hw, hd]

theorem engineTurn_of_error {s : State} {w : Word} {e : DecodeError} (hw : s.pend = some w) (hd : decode w = .error e) :
    engineTurn s = .next (raiseError (decodeCause e) (opcOf w) 0 s) := by simp [engineTurn, hw, hd]

/-- The state a turn of the engine leaves when a command is pending and the turn answers one. -/
inductive TurnAnswers (s : State) : State → Prop
  | raises {c : Cause} (o : Opcode) {n : BitVec 3} : RaisedByEngine c n → TurnAnswers s (raiseError c o n s)
  | runs {i : Instr} {t : State} : Answers i s t → TurnAnswers s t

theorem raisedByEngine_decodeCause (e : DecodeError) : RaisedByEngine (decodeCause e) 0 := by
  cases e <;> exact ⟨rfl, by decide⟩

/-- A turn of the engine on a pending word answers a state or ends in the fault of an unwritten word. -/
theorem engineTurn_pending_cases {s : State} (h : s.pend ≠ none) :
    (∃ t, engineTurn s = .next t ∧ TurnAnswers s t) ∨ engineTurn s = .fault .unwrittenWord := by
  obtain ⟨w, hw⟩ := Option.ne_none_iff_exists'.1 h
  cases hd : decode w with
  | error e => exact .inl ⟨_, engineTurn_of_error hw hd, .raises _ (raisedByEngine_decodeCause e)⟩
  | ok i =>
    rw [engineTurn_of_ok hw hd]
    exact (exec_cases i s).imp_left fun ⟨t, he, ht⟩ => ⟨t, he, .runs ht⟩

/-- After a command's answer nothing is pending. -/
theorem Answers.pend_eq_none {i : Instr} {s t : State} (h : Answers i s t) : t.pend = none := by cases h <;> rfl

theorem TurnAnswers.pend_eq_none {s t : State} (h : TurnAnswers s t) : t.pend = none := by
  cases h with
  | raises => rfl
  | runs h => exact h.pend_eq_none

/-- No command changes the parameters. -/
theorem Answers.params_eq {i : Instr} {s t : State} (h : Answers i s t) : t.params = s.params := by cases h <;> rfl

theorem TurnAnswers.params_eq {s t : State} (h : TurnAnswers s t) : t.params = s.params := by
  cases h with
  | raises => rfl
  | runs h => exact h.params_eq

/-! ## The obligations -/

/-- The engine's search for an invalid descriptor, in the terms of the claims. -/
theorem exists_first_invalid {s : State} {i : Instr} {f : OperandField}
    (hf : firstInvalid s (operandFields i) = some f) :
    ∃ earlier u later, usedFields i = earlier ++ u :: later ∧ (∀ e ∈ earlier, ValidDesc s e.2) ∧ ¬ ValidDesc s u.2 ∧
      u.1 = f.opnd := by
  obtain ⟨earlier, j, later, hsplit, hvalid, hj⟩ := firstInvalid_eq_some hf
  refine ⟨earlier.map fun e => (e.1.opnd, e.2), (f.opnd, j), later.map fun e => (e.1.opnd, e.2), ?_, ?_, hj, rfl⟩
  · rw [usedFields_eq_map, hsplit, List.map_append, List.map_cons]
  · exact List.forall_mem_map.2 hvalid

/-- Settles O27: the three answers of the decoder, then the equation of `exec` for the first check that fails. -/
theorem checksAreMadeInOrder : Obligations.ChecksAreMadeInOrder := by
  unfold Obligations.ChecksAreMadeInOrder
  intro s w hw
  rw [after_eq_handle, handle]
  split
  case isTrue hundef => exact engineTurn_of_error hw (decode_of_undefined hundef)
  case isFalse hdef =>
  rw [Bool.not_eq_false] at hdef
  split
  case isTrue hzero => exact engineTurn_of_error hw (decode_of_nonzero hdef hzero)
  case isFalse hzero =>
  rw [Bool.not_eq_false] at hzero
  obtain ⟨i, hd, rfl⟩ := decode_of_wellFormed hdef hzero
  refine ⟨i, rfl, ?_⟩
  rw [engineTurn_of_ok hw hd, opcOf_encode_eq_opcode]
  split
  case isTrue hi => rw [hi]; rfl
  case isFalse hi =>
  split
  case isTrue hcfg =>
    rw [← cfgOk_iff, Bool.not_eq_true] at hcfg
    exact exec_not_configured hi hcfg
  case isFalse hcfg =>
  have hc := (cfgOk_iff s).2 (not_not.1 hcfg)
  split
  case isTrue hinvalid =>
    have hne : firstInvalid s (operandFields i) ≠ none := fun hf => by
      obtain ⟨u, hu, hn⟩ := hinvalid
      exact hn ((usedFields_valid_iff s i).2 hf u hu)
    obtain ⟨f, hf⟩ := Option.ne_none_iff_exists'.1 hne
    obtain ⟨earlier, u, later, hsplit, hvalid, hu, hopnd⟩ := exists_first_invalid hf
    exact ⟨earlier, u, later, hsplit, hvalid, hu, hopnd ▸ exec_bad_descriptor hi hc hf⟩
  case isFalse hvalid =>
  have hf := (usedFields_valid_iff s i).1 fun u hu => by_contra fun hn => hvalid ⟨u, hu, hn⟩
  split
  case isTrue hs => exact exec_shape_mismatch hi hc hf hs
  case isFalse hs =>
  rw [not_not] at hs
  split
  case isTrue hwritten =>
    obtain ⟨t, ht, he⟩ := exec_completes hi hc hf hs hwritten
    exact ⟨complete t, he, he, rfl, ht.err_eq, rfl⟩
  case isFalse hwritten => exact exec_unwritten hi hc hf hs hwritten

/-- Settles O30: each answer of a command writes only the fields named. -/
theorem commandsKeepHostRegisters : Obligations.CommandsKeepHostRegisters := by
  unfold Obligations.CommandsKeepHostRegisters
  intro i s t h
  cases answers_of_exec h <;> rfl

/-- Settles O31: of the answers of a command only that of a CHKSK has another CHK. -/
theorem onlyChkskWritesChk : Obligations.OnlyChkskWritesChk := by
  unfold Obligations.OnlyChkskWritesChk
  intro i s t h hchk
  cases answers_of_exec h with
  | checks b hi => exact ⟨⟨_, _, hi⟩, rfl, rfl⟩
  | nop | raises | stores => exact absurd rfl hchk

/-- A word a store changes is a coefficient of the matrix, so below q when the matrix is canonical. -/
theorem store_read_cases {s : State} (hw : s.pm.wf = true) (d : Word) {M : Mat} (hM : CanonicalMat s.ring M) (a : Nat) :
    (store d M s).pm.read a = s.pm.read a ∨ ∃ v, (store d M s).pm.read a = some v ∧ v.toNat < s.ring.q := by
  rcases Memory.read_writeAll hw (storeWords s d M) a with hr | ⟨u, hu, -, hr⟩
  · exact .inl hr
  · obtain ⟨r, -, c, -, x, -, rfl⟩ := mem_storeWords.1 hu
    refine .inr ⟨_, hr, ?_⟩
    rw [BitVec.toNat_ofNat]
    exact (Nat.mod_le _ _).trans_lt (hM r c x)

/-- Settles O32: PM changes only by a store, and what a command stores is canonical. -/
theorem commandsStoreCanonicalResidues : Obligations.CommandsStoreCanonicalResidues := by
  unfold Obligations.CommandsStoreCanonicalResidues
  intro i s t _ hw h a
  cases answers_of_exec h with
  | stores _ _ hM => exact store_read_cases hw _ hM a
  | nop | raises | checks => exact .inl rfl

end Sys2Proof.Machine
end

section
/-! PROOFS. The host window (10_state.md rules R22 to R37, 20_memory.md rules R60 to R68): an access of the right width
at a register's offset is the read or write of that register, and what each register then does. -/

namespace Sys2Proof.Machine

open Sys2Proof.Spec

/-! ## From an offset to its register -/

/-- An offset inside the window is an address inside the window. -/
theorem inWindow_of_lt (p : Config.Params) {off : Nat} (h : off < 256) : inWindow p (p.hostBase + off) = true := by
  simp [inWindow, h]

/-- A register's offset lies in the window, is a multiple of 4 and is not reserved. -/
theorem regAt_eq_some_offset {off : Nat} {r : Reg} (h : regAt off = some r) :
    off % 4 = 0 ∧ (off < 0x02C ∨ 0x040 ≤ off ∧ off < 0x080) := by
  unfold regAt at h
  split at h
  case h_12 =>
    split at h
    · omega
    · cases h
  all_goals omega

/-- A 32-bit read at a register's offset. -/
theorem after_hostRead {s : State} {off : Nat} {r : Reg} (h : regAt off = some r) :
    after (hostRead s off) s = readReg r s := by
  have := regAt_eq_some_offset h
  simp [after_eq_handle, handle, hostRead, hostAccess, inWindow_of_lt s.params (show off < 256 by omega), target, h]

/-- A 32-bit write at a register's offset. -/
theorem after_hostWrite {s : State} {off : Nat} {r : Reg} (v : Word) (h : regAt off = some r) :
    after (hostWrite s off v) s = .next (writeReg r v s) := by
  have := regAt_eq_some_offset h
  simp [after_eq_handle, handle, hostWrite, hostAccess, inWindow_of_lt s.params (show off < 256 by omega), target, h]

/-- The offset of a descriptor register (10_state.md rule R31). -/
theorem regAt_md (i : Idx) : regAt (0x040 + 4 * i.toNat) = some (.md i) := by
  have := i.isLt
  unfold regAt
  split
  case h_12 =>
    rw [if_pos (by omega)]
    congr 2
    apply BitVec.eq_of_toNat_eq
    rw [BitVec.toNat_ofNat]
    omega
  all_goals omega

/-! ## BUSY, and the bits of a word of flags -/

theorem busy_iff (s : State) : s.busy = true ↔ s.pend ≠ none := by simp [State.busy, Option.isSome_iff_ne_none]

/-- A choice by BUSY is a choice by a pending command. -/
theorem ite_busy {α : Type} (s : State) (a b : α) : (if s.busy then a else b) = if s.pend ≠ none then a else b := by
  simp only [busy_iff]

/-- A flag's word has that flag at its place and 0 elsewhere. -/
theorem getLsbD_flagBit (b : Bool) {i j : Nat} (hj : j < 32) : (flagBit b i).getLsbD j = (b && decide (j = i)) := by
  cases b with
  | false => simp [flagBit]
  | true =>
    rw [flagBit, if_pos rfl, BitVec.getLsbD_shiftLeft, BitVec.getLsbD_one, Bool.true_and, Bool.eq_iff_iff]
    simp only [hj, true_and, Bool.and_eq_true, Bool.not_eq_true', decide_eq_true_eq, decide_eq_false_iff_not]
    omega

/-- The bits of STATUS (rule R27). -/
theorem getLsbD_statusWord (s : State) {j : Nat} (hj : j < 32) :
    s.statusWord.getLsbD j =
      ((s.busy && decide (j = 0)) || (s.done && decide (j = 1)) || (s.err && decide (j = 2)) ||
        (s.haz && decide (j = 3)) || (s.aerr && decide (j = 4)) || (s.chk && decide (j = 5)) ||
        (s.cfgOk && decide (j = 6))) := by
  simp only [State.statusWord, BitVec.getLsbD_or, getLsbD_flagBit _ hj]

/-! ## CTRL, STATUS and the constants -/

/-- CTRL reads IE in bit 1 and 0 elsewhere (rule R33). -/
theorem ctrlWord_eq (s : State) : s.ctrlWord = if s.ie then 2 else 0 := by
  unfold State.ctrlWord
  cases s.ie <;> rfl

theorem abandonPending_none {s : State} (h : s.pend = none) : abandonPending s = s := by simp [abandonPending, h]

theorem abandonPending_some {s : State} {w : Word} (h : s.pend = some w) :
    abandonPending s =
      { s with pm := drawWords s.draws s.pm (abandonedWords s w), draws := s.draws + (abandonedWords s w).length } := by
  simp [abandonPending, h]

/-- The draws of a soft reset change PM and the model's count of draws only. -/
theorem abandonPending_eq (s : State) :
    abandonPending s = { s with pm := (abandonPending s).pm, draws := (abandonPending s).draws } := by
  rcases Option.eq_none_or_eq_some s.pend with h | ⟨w, h⟩
  · rw [abandonPending_none h]
  · rw [abandonPending_some h]

/-- A soft reset gives every register its value after power-on reset (10_state.md rule R43). -/
theorem softReset_eq (s : State) :
    softReset s = { State.reset with params := s.params, pm := (softReset s).pm, schedule := s.schedule,
                                     reads := s.reads, draws := (softReset s).draws } := by
  rw [softReset, abandonPending_eq]
  rfl

/-- The fields of PARAM, from the highest, as a number. -/
theorem toNat_paramWord {p : Config.Params} (hp : p.Legal) :
    (paramWord p).toNat = 16 * 2 ^ 16 + p.lognMax * 2 ^ 8 + p.logqMax := by
  obtain ⟨-, hq, -, hn, -, -⟩ := hp
  simp only [paramWord, toNat_append_eq, BitVec.toNat_ofNat, Config.nmd]
  omega

theorem toNat_pslotsWord {p : Config.Params} (hp : p.Legal) : (pslotsWord p).toNat = p.slots := by
  obtain ⟨-, -, -, -, -, hs⟩ := hp
  simp only [pslotsWord, toNat_append_eq, BitVec.toNat_ofNat]
  omega

/-- A field of a word, from the word's number. -/
theorem toNat_field (w : Word) (lo len : Nat) : (w.extractLsb' lo len).toNat = w.toNat / 2 ^ lo % 2 ^ len := by
  rw [BitVec.extractLsb'_toNat, Nat.shiftRight_eq_div_pow]

theorem field_eq_zero_iff (w : Word) (lo len : Nat) : w.extractLsb' lo len = 0 ↔ w.toNat / 2 ^ lo % 2 ^ len = 0 := by
  rw [← BitVec.toNat_inj, toNat_field]
  rfl

/-! ## PMDATA's port (20_memory.md rules R65 to R67) -/

theorem pmCoef_eq_portCoef (s : State) : pmCoef s.pmaddr = portCoef s := rfl

theorem pmSlot_eq_portSlot (s : State) : pmSlot s.pmaddr = portSlot s := rfl

theorem pmInRange_iff (s : State) :
    pmInRange s = true ↔ ¬ (s.params.slots ≤ portSlot s ∨ 2 ^ s.params.lognMax ≤ portCoef s) := by
  simp only [pmInRange, Bool.and_eq_true, decide_eq_true_eq, not_or, not_le]
  exact Iff.rfl

/-- PMADDR from its two halves. -/
theorem append_halves (a b : Nat) :
    BitVec.ofNat 16 a ++ BitVec.ofNat 16 b = BitVec.ofNat 32 (a % 65536 * 65536 + b % 65536) := by
  apply BitVec.eq_of_toNat_eq
  rw [toNat_append_eq]
  simp only [BitVec.toNat_ofNat]
  omega

/-- The engine's advance is that of rule R66. -/
theorem pmNext_eq_portNext (s : State) : pmNext s = portNext s := by
  have hslot : portSlot s < 65536 := (s.pmaddr.extractLsb' 16 16).isLt
  have hlim : (if s.cfgOk then s.ring.n else s.params.nmax) =
      if ValidCfg s.params s.cfg then 2 ^ (s.cfg.extractLsb' 8 4).toNat else 2 ^ s.params.lognMax := by
    simp only [cfgOk_iff]
    rfl
  simp only [pmNext, portNext, hlim, pmCoef_eq_portCoef, pmSlot_eq_portSlot]
  generalize (if ValidCfg s.params s.cfg then _ else _) = lim
  split
  · simpa only [Nat.zero_mod, Nat.add_zero] using append_halves (portSlot s + 1) 0
  · rw [append_halves, Nat.mod_eq_of_lt hslot]

/-! ## The obligations -/

/-- Settles O37: by whether v's ERR bit is set, for with it the write is a return from the error too. -/
theorem statusWriteClearsFlags : Obligations.StatusWriteClearsFlags := by
  unfold Obligations.StatusWriteClearsFlags
  intro s v
  rw [after_hostWrite v (r := .status) rfl, writeReg, writeStatus]
  cases v.getLsbD 2 with
  | false => simp
  | true => simp [clearError]

/-- Settles O38: the write is that of `writeCmd`, dropped, ignored or accepted. -/
theorem cmdWriteAcceptsOrDrops : Obligations.CmdWriteAcceptsOrDrops := by
  unfold Obligations.CmdWriteAcceptsOrDrops
  refine ⟨fun s v => ⟨?_, after_hostRead (r := .cmd) rfl⟩, rfl⟩
  rw [after_hostWrite v (r := .cmd) rfl, writeReg, writeCmd, ite_busy]
  rfl

/-- Settles O39: a soft reset with bit 0, else a write of IE. -/
theorem ctrlWriteResetsOrEnables : Obligations.CtrlWriteResetsOrEnables := by
  unfold Obligations.CtrlWriteResetsOrEnables
  intro s v
  refine ⟨⟨_, after_hostWrite v (r := .ctrl) rfl, ?_⟩, ?_⟩
  · rw [writeReg, writeCtrl]
    split
    · exact softReset_eq s
    · rfl
  · rw [after_hostRead (r := .ctrl) rfl, ← ctrlWord_eq]
    rfl

/-- Settles O40: the four branches of `readPmdata`, with the advance of the port. -/
theorem pmdataReadRule : Obligations.PmdataReadRule := by
  unfold Obligations.PmdataReadRule
  intro s
  rw [after_hostRead (r := .pmdata) rfl, readReg, readPmdata, ite_busy]
  simp only [pmInRange_iff, ite_not, pmSlot_eq_portSlot, pmCoef_eq_portCoef, advance, pmNext_eq_portNext]
  rfl

/-- Settles O42: neither access looks at PEND. -/
theorem pmaddrWriteStoresAllBits : Obligations.PmaddrWriteStoresAllBits := by
  unfold Obligations.PmaddrWriteStoresAllBits
  exact fun s v => ⟨after_hostWrite v (r := .pmaddr) rfl, after_hostRead (r := .pmaddr) rfl⟩

/-- Settles O43: the write replaces one entry of the vector of descriptors. -/
theorem descriptorWriteStoresOneRegister : Obligations.DescriptorWriteStoresOneRegister := by
  unfold Obligations.DescriptorWriteStoresOneRegister
  intro s i v
  refine ⟨⟨_, after_hostWrite v (regAt_md i), ?_⟩, after_hostRead (regAt_md i)⟩
  rw [writeReg, writeMd, ite_busy]
  split
  · rfl
  · refine ⟨rfl, fun j => ?_⟩
    simp only [State.desc, Vector.getElem_set, BitVec.toNat_inj, eq_comm (a := i)]

/-- Settles O44: each constant is a number whose fields are read off. -/
theorem constantRegistersRead : Obligations.ConstantRegistersRead := by
  unfold Obligations.ConstantRegistersRead
  intro s hp
  have hparam := toNat_paramWord hp
  have hpslots := toNat_pslotsWord hp
  obtain ⟨-, hq, -, hn, -, hs⟩ := hp
  refine ⟨after_hostRead (r := .id) rfl, after_hostRead (r := .ver) rfl,
    ⟨_, after_hostRead (r := .param) rfl, ?_⟩, ⟨_, after_hostRead (r := .pslots) rfl, ?_⟩, ?_⟩
  · simp only [regValue, toNat_field, field_eq_zero_iff, hparam]
    omega
  · simp only [regValue, toNat_field, field_eq_zero_iff, hpslots]
    omega
  · simp only [List.forall_mem_cons, List.not_mem_nil, false_imp_iff, implies_true, and_true]
    exact ⟨fun v => after_hostWrite v (r := .id) rfl, fun v => after_hostWrite v (r := .ver) rfl,
      fun v => after_hostWrite v (r := .param) rfl, fun v => after_hostWrite v (r := .pslots) rfl,
      fun v => after_hostWrite v (r := .cause) rfl⟩

/-- Settles O45: STATUS bit by bit. -/
theorem statusReadShowsFlags : Obligations.StatusReadShowsFlags := by
  unfold Obligations.StatusReadShowsFlags
  intro s
  refine ⟨⟨_, after_hostRead (r := .status) rfl, ?_⟩, after_hostRead (r := .cfg) rfl, after_hostRead (r := .cause) rfl⟩
  rw [← busy_iff, ← cfgOk_iff, regValue]
  refine ⟨?_, ?_, ?_, ?_, ?_, ?_, ?_, ?_⟩
  case refine_8 =>
    refine BitVec.eq_of_getLsbD_eq fun j hj => ?_
    have hne : ∀ i < 7, 7 + j ≠ i := by omega
    rw [BitVec.getLsbD_extractLsb', getLsbD_statusWord s (show 7 + j < 32 by omega)]
    simp [hne]
  all_goals
    rw [getLsbD_statusWord s (by decide)]
    simp

/-- Settles O46. -/
theorem irqFollowsDoneAndErr : Obligations.IrqFollowsDoneAndErr := by
  unfold Obligations.IrqFollowsDoneAndErr
  intro s
  rw [State.irq, Bool.and_eq_true, Bool.or_eq_true]

/-- An access of a wrong width or at a bad offset reaches no register (10_state.md rule R36). -/
theorem target_eq_none {off width : Nat}
    (h : width ≠ 4 ∨ off % 4 ≠ 0 ∨ (0x02C ≤ off ∧ off < 0x040) ∨ 0x080 ≤ off) : target off width = none := by
  by_contra hne
  obtain ⟨r, hr⟩ := Option.ne_none_iff_exists'.1 hne
  rw [target] at hr
  split at hr
  · have := regAt_eq_some_offset hr
    omega
  · cases hr

/-- Settles O47: such an access is inside the window and reaches no register. -/
theorem badAccessesSetAerr : Obligations.BadAccessesSetAerr := by
  unfold Obligations.BadAccessesSetAerr
  intro s off width v hoff hbad
  have hin := inWindow_of_lt s.params hoff
  have hnone := target_eq_none hbad
  constructor <;> simp [after_eq_handle, handle, hostAccess, hin, hnone, deliver, State.setAerr]

end Sys2Proof.Machine
end

section
/-! PROOFS. The soft reset (70_reset_and_hazards.md rule R233): the region of the abandoned command, and what its words
and the others read afterwards. -/

namespace Sys2Proof.Machine

open Sys2Proof.Spec

/-! ## The region of the abandoned command -/

/-- An abandoned command with a destination: its opcode is defined and has one, and its MD descriptor is valid. -/
abbrev HasRegion (s : State) (w : Word) : Prop := opcodeHasDest (opcOf w) = true ∧ ValidDesc s (mdOf w)

/-- Counting the elements of a matrix row by row (10_state.md rule R31). -/
theorem exists_row_col_iff {rows cols : Nat} {p : Nat → Prop} :
    (∃ y < rows * cols, p y) ↔ ∃ r < rows, ∃ c < cols, p (r * cols + c) := by
  constructor
  · rintro ⟨y, hy, hp⟩
    have hcols : 0 < cols := Nat.pos_of_ne_zero (by rintro rfl; simp at hy)
    exact ⟨y / cols, Nat.div_lt_of_lt_mul (by rwa [Nat.mul_comm]), y % cols, Nat.mod_lt _ hcols,
      by rwa [Nat.div_add_mod']⟩
  · rintro ⟨r, hr, c, hc, hp⟩
    have : (r + 1) * cols ≤ rows * cols := Nat.mul_le_mul_right _ hr
    rw [Nat.add_mul, Nat.one_mul] at this
    exact ⟨r * cols + c, by omega, hp⟩

/-- The region as the claims name it: the words x < min(n, NMAX) of the elements of MD's matrix. -/
theorem mem_abandonedWords {s : State} {w : Word} (h : HasRegion s w) (a : Nat) :
    a ∈ abandonedWords s w ↔ ∃ r < rowsOf s (mdOf w), ∃ c < colsOf s (mdOf w), ∃ x < min s.ring.n s.params.nmax,
      a = addrOf s (mdOf w) r c x := by
  have hguard : (opcodeHasDest (opcOf w) && descValid s.params (s.desc (mdOf w))) = true := by
    rw [Bool.and_eq_true, descValid_iff]
    exact h
  simp only [abandonedWords, hguard, if_true, List.mem_flatMap, List.mem_map, List.mem_range]
  rw [exists_row_col_iff]
  simp only [rowsOf, colsOf, addrOf, descSlot, Nat.add_assoc, eq_comm (a := a)]

/-- Without such a command no word is drawn. -/
theorem abandonedWords_eq_nil {s : State} {w : Word} (h : ¬ HasRegion s w) : abandonedWords s w = [] := by
  rw [HasRegion, ← descValid_iff, ← Bool.and_eq_true] at h
  simp only [abandonedWords, if_neg h]

/-- Different words of a region have different addresses. -/
theorem addrOf_inj {s : State} {i : Idx} {r c x r' c' x' : Nat} (hc : c < colsOf s i) (hc' : c' < colsOf s i)
    (hx : x < s.params.nmax) (hx' : x' < s.params.nmax) (h : addrOf s i r c x = addrOf s i r' c' x') :
    r = r' ∧ c = c' ∧ x = x' := by
  obtain ⟨hslot, hxx⟩ := wordAddr_inj hx hx' h
  obtain ⟨hr, hcc⟩ := descSlot_inj hc hc' hslot
  exact ⟨hr, hcc, hxx⟩

/-! ## PM after a soft reset -/

theorem softReset_pm_idle {s : State} (h : s.pend = none) : (softReset s).pm = s.pm := by
  rw [softReset, resetRegisters_pm, abandonPending_none h]

theorem softReset_pm_pending {s : State} {w : Word} (h : s.pend = some w) :
    (softReset s).pm = drawWords s.draws s.pm (abandonedWords s w) := by
  rw [softReset, resetRegisters_pm, abandonPending_some h]

theorem softReset_draws_pending {s : State} {w : Word} (h : s.pend = some w) :
    (softReset s).draws = s.draws + (abandonedWords s w).length := by
  rw [softReset, resetRegisters_draws, abandonPending_some h]

/-- The number of the draw that a soft reset makes for an address of the region of w. -/
def drawNumber (s : State) (w : Word) (a : Nat) : Nat := s.draws + (abandonedWords s w).idxOf a

theorem drawNumber_inj {s : State} {w : Word} {a b : Nat} (ha : a ∈ abandonedWords s w)
    (h : drawNumber s w a = drawNumber s w b) : a = b :=
  (List.idxOf_inj ha).1 (Nat.add_left_cancel h)

/-- Settles O51: the draws are numbered by the place of each address in the list of the region, which has none twice. -/
theorem softResetDrawsTheAbandonedRegion : Obligations.SoftResetDrawsTheAbandonedRegion := by
  unfold Obligations.SoftResetDrawsTheAbandonedRegion
  intro s t v hwf hv h
  rw [after_hostWrite v (r := .ctrl) rfl, writeReg, writeCtrl, if_pos hv] at h
  cases h
  refine ⟨softReset_pm_idle, fun w hw => ?_⟩
  rw [softReset_pm_pending hw, softReset_draws_pending hw]
  by_cases hregion : HasRegion s w
  · rw [if_pos hregion]
    have hmem := mem_abandonedWords hregion
    refine ⟨drawNumber s w, fun r hr c hc x hx => ?_, fun a ha => ?_⟩
    · have ha := (hmem _).2 ⟨r, hr, c, hc, x, hx, rfl⟩
      refine ⟨Nat.le_add_right _ _, Nat.add_lt_add_left (List.idxOf_lt_length_of_mem ha) _,
        read_drawWords_mem hwf _ (abandonedWords_nodup s w) ha, fun r' _ c' hc' x' hx' heq => ?_⟩
      exact addrOf_inj hc hc' (by omega) (by omega) (drawNumber_inj ha heq)
    · refine read_drawWords_other hwf _ fun hin => ?_
      obtain ⟨r, hr, c, hc, x, hx, he⟩ := (hmem a).1 hin
      exact ha r hr c hc x hx he
  · rw [if_neg hregion, abandonedWords_eq_nil hregion]
    rfl

end Sys2Proof.Machine
end

section
/-! PROOFS. Every step keeps the invariant of the machine: the part about PM is kept because every write to PM goes to
a word PM has, the part about CAUSE because every recorded error has a legal code and operand, and the part about PEND
by how a command is accepted and ends (10_state.md rules R24, R30, R40; 60_exceptions.md rules R201, R202, R208, R211).
-/

namespace Sys2Proof.Machine

open Sys2Proof.Spec

variable {s : State}

/-! ## PM -/

/-- Words of PM lie below its size. -/
theorem wordAddr_lt {p : Config.Params} {slot x : Nat} (hslot : slot < p.slots) (hx : x < p.nmax) :
    wordAddr p slot x < p.slots * p.nmax := by
  have : (slot + 1) * p.nmax ≤ p.slots * p.nmax := Nat.mul_le_mul_right _ hslot
  rw [Nat.add_mul, Nat.one_mul] at this
  simp only [wordAddr]
  omega

/-- Writes to words PM has keep the invariant of PM. -/
theorem pmInv_writeAll {ws : List (Nat × Word)} (h : PmInv s) (hws : ∀ w ∈ ws, w.1 < s.params.slots * s.params.nmax) :
    PmInv { s with pm := s.pm.writeAll ws } := by
  obtain ⟨hwf, hbound⟩ := h
  refine ⟨Memory.writeAll_wf hwf ws, fun c hc => ?_⟩
  rcases Memory.mem_writeAll hc with ⟨w, hw, he⟩ | hc
  · exact he ▸ hws w hw
  · exact hbound c hc

/-- A store through a valid descriptor writes words PM has (20_memory.md rule R64). -/
theorem store_pmInv {d : Word} (M : Mat) (h : PmInv s) (hc : s.cfgOk = true) (hd : descValid s.params d = true) :
    PmInv (store d M s) := by
  refine pmInv_writeAll h fun w hw => ?_
  obtain ⟨r, hr, c, hcol, x, hx, rfl⟩ := mem_storeWords.1 hw
  exact wordAddr_lt (descSlot_lt hd hr hcol) (hx.trans_le (ring_n_le_nmax hc))

/-- A write through the port writes a word PM has (20_memory.md rule R65). -/
theorem writePmdata_pmInv (v : Word) (h : PmInv s) : PmInv (writePmdata v s) := by
  unfold writePmdata
  split
  · exact h
  · split
    · rename_i hin
      simp only [pmInRange, Bool.and_eq_true, decide_eq_true_eq] at hin
      exact pmInv_writeAll (ws := [(_, v)]) h (List.forall_mem_singleton.2 (wordAddr_lt hin.1 hin.2))
    · exact h

/-- The words a soft reset draws are words PM has (70_reset_and_hazards.md rule R233). -/
theorem abandonedWords_lt {w : Word} : ∀ a ∈ abandonedWords s w, a < s.params.slots * s.params.nmax := by
  intro a ha
  by_cases hregion : HasRegion s w
  · obtain ⟨r, hr, c, hc, x, hx, rfl⟩ := (mem_abandonedWords hregion a).1 ha
    exact wordAddr_lt (descSlot_lt ((descValid_iff s _).2 hregion.2) hr hc) (by omega)
  · rw [abandonedWords_eq_nil hregion] at ha
    cases ha

theorem abandonPending_pmInv (h : PmInv s) : PmInv (abandonPending s) := by
  rcases Option.eq_none_or_eq_some s.pend with hw | ⟨w, hw⟩
  · rwa [abandonPending_none hw]
  · rw [abandonPending_some hw]
    refine pmInv_writeAll h fun u hu => ?_
    obtain ⟨⟨a, k⟩, hak, rfl⟩ := List.mem_map.1 hu
    exact abandonedWords_lt a (List.fst_mem_of_mem_zipIdx hak)

/-! ## CAUSE -/

/-- The fields of a recorded CAUSE. -/
theorem fields_causeWord (code : BitVec 8) (o : Opcode) (n : BitVec 3) :
    (causeWord code o n).extractLsb' 0 8 = code ∧ (causeWord code o n).extractLsb' 8 8 = o ∧
      (causeWord code o n).extractLsb' 16 3 = n ∧ (causeWord code o n).extractLsb' 19 13 = 0 := by
  have h : (causeWord code o n).toNat = n.toNat * 2 ^ 16 + o.toNat * 2 ^ 8 + code.toNat := by
    simp only [causeWord, toNat_append_eq, BitVec.toNat_ofNat]
    ring
  have := code.isLt; have := o.isLt; have := n.isLt
  rw [field_eq_zero_iff]
  simp only [← BitVec.toNat_inj, toNat_field, h]
  omega

/-- Recording an error keeps CAUSE and ERR in agreement: an earlier cause stays, and a new one is legal. -/
theorem recordError_causeInv {c : Cause} {o : Opcode} {n : BitVec 3} (h : CauseInv s) (hn : OperandOfCause c n)
    (ho : c = .badConfig → o = 0xFF) : CauseInv (recordError c o n s) := by
  refine ⟨fun he => absurd he (by simp), fun _ => ?_⟩
  rw [recordError_cause]
  cases he : s.err with
  | true => exact h.2 he
  | false =>
    obtain ⟨hcode, hopc, hopnd, hzero⟩ := fields_causeWord c.code o n
    rw [if_neg (by decide), hcode, hopc, hopnd, hzero]
    cases c <;> simp_all [Cause.code, OperandOfCause]

theorem clearError_causeInv (s : State) : CauseInv (clearError s) := ⟨fun _ => rfl, fun he => absurd he (by simp)⟩

theorem raiseError_causeInv {c : Cause} {n : BitVec 3} (o : Opcode) (h : CauseInv s) (hr : RaisedByEngine c n) :
    CauseInv (raiseError c o n s) :=
  recordError_causeInv h hr.operand fun hc => absurd hc hr.ne_badConfig

/-! ## The engine -/

/-- Raising an error ends an accepted command, whose DONE is still 0 (60_exceptions.md rule R201). -/
theorem raiseError_engineInv {c : Cause} {n : BitVec 3} (o : Opcode) (h : EngineInv s) (hp : s.pend ≠ none)
    (hr : RaisedByEngine c n) : EngineInv (raiseError c o n s) := by
  obtain ⟨hlegal, hpm, hcfg, hcause, hpend, -⟩ := h
  obtain ⟨-, hdone, -⟩ := hpend (Option.isSome_iff_ne_none.2 hp)
  exact ⟨hlegal, hpm, hcfg, raiseError_causeInv o hcause hr, by simp, fun hd => absurd hd (by simp [hdone])⟩

/-- Completing an accepted command leaves ERR at 0 (60_exceptions.md rule R211). -/
theorem complete_engineInv (h : EngineInv s) (hp : s.pend ≠ none) : EngineInv (complete s) := by
  obtain ⟨hlegal, hpm, hcfg, hcause, hpend, -⟩ := h
  obtain ⟨-, -, herr⟩ := hpend (Option.isSome_iff_ne_none.2 hp)
  exact ⟨hlegal, hpm, hcfg, hcause, by simp, fun _ he => absurd he (by simp [herr])⟩

theorem Answers.engineInv {i : Instr} {t : State} (ht : Answers i s t) (h : EngineInv s) (hp : s.pend ≠ none) :
    EngineInv t := by
  cases ht with
  | nop => exact complete_engineInv h hp
  | raises hr => exact raiseError_engineInv _ h hp hr
  | stores hc hd hM =>
    obtain ⟨hlegal, hpm, hrest⟩ := h
    exact complete_engineInv (s := store _ _ s) ⟨hlegal, store_pmInv _ hpm hc hd, hrest⟩ hp
  | checks b => exact complete_engineInv (s := { s with chk := b }) h hp

theorem TurnAnswers.engineInv {t : State} (ht : TurnAnswers s t) (h : EngineInv s) (hp : s.pend ≠ none) :
    EngineInv t := by
  cases ht with
  | raises o hr => exact raiseError_engineInv o h hp hr
  | runs ht => exact ht.engineInv h hp

theorem engineTurn_keeps {t : State} (h : EngineInv s) (ht : engineTurn s = .next t) :
    EngineInv t ∧ t.params = s.params := by
  by_cases hp : s.pend = none
  · rw [engineTurn_idle hp] at ht
    cases ht
    exact ⟨h, rfl⟩
  · rcases engineTurn_pending_cases hp with ⟨u, he, hu⟩ | he <;> rw [he] at ht <;> cases ht
    exact ⟨hu.engineInv h hp, hu.params_eq⟩

/-! ## The host -/

/-- A write of CFG stores no reserved bit, and with an invalid value records BAD_CONFIG, the one error that may join a
set DONE (60_exceptions.md rules R206, R211). -/
theorem writeCfg_engineInv (v : Word) (h : EngineInv s) : EngineInv (writeCfg v s) := by
  simp only [writeCfg]
  split
  · exact h
  · rename_i hbusy
    have hidle : s.pend = none := by simpa [busy_iff] using hbusy
    obtain ⟨hlegal, hpm, -, hcause, -, hboth⟩ := h
    have hcfg : v &&& cfgMask &&& 0xFFFFF0C0 = 0 := by
      rw [BitVec.and_assoc, show cfgMask &&& 0xFFFFF0C0 = 0#32 from rfl, BitVec.and_zero]
      rfl
    split
    · exact ⟨hlegal, hpm, hcfg, hcause, by simp [hidle], hboth⟩
    · refine ⟨hlegal, hpm, hcfg, recordError_causeInv (s := { s with cfg := v &&& cfgMask }) hcause rfl fun _ => rfl,
        by simp [hidle], fun hd _ => ?_⟩
      rw [recordError_cause]
      split
      · exact hboth hd ‹_›
      · rfl

/-- A write of STATUS clears flags, and CAUSE with ERR (10_state.md rule R28). -/
theorem writeStatus_engineInv (v : Word) (h : EngineInv s) : EngineInv (writeStatus v s) := by
  obtain ⟨hlegal, hpm, hcfg, hcause, hpend, hboth⟩ := h
  unfold writeStatus
  split
  · refine ⟨hlegal, hpm, hcfg, clearError_causeInv s, fun hp => ?_, by simp⟩
    obtain ⟨hlast, hdone, -⟩ := hpend hp
    exact ⟨hlast, by simp [hdone], rfl⟩
  · refine ⟨hlegal, hpm, hcfg, hcause, fun hp => ?_, fun hd => hboth (by simp_all)⟩
    obtain ⟨hlast, hdone, herr⟩ := hpend hp
    exact ⟨hlast, by simp [hdone], herr⟩

/-- A command is accepted with ERR = 0, and its acceptance clears DONE (10_state.md rule R30). -/
theorem writeCmd_engineInv (v : Word) (h : EngineInv s) : EngineInv (writeCmd v s) := by
  unfold writeCmd
  split
  · exact h
  · split
    · exact h
    · rename_i herr
      obtain ⟨hlegal, hpm, hcfg, hcause, -⟩ := h
      exact ⟨hlegal, hpm, hcfg, hcause, fun _ => ⟨rfl, rfl, by simpa using herr⟩, by simp⟩

theorem writeCtrl_engineInv (v : Word) (h : EngineInv s) : EngineInv (writeCtrl v s) := by
  unfold writeCtrl
  split
  · obtain ⟨hlegal, hpm, -⟩ := h
    refine resetRegisters_engineInv ?_ (abandonPending_pmInv hpm)
    rwa [abandonPending_eq]
  · exact h

theorem writePmdata_engineInv (v : Word) (h : EngineInv s) : EngineInv (writePmdata v s) := by
  have hpm := writePmdata_pmInv v h.2.1
  revert hpm
  unfold writePmdata
  split
  · exact fun _ => h
  · split
    · exact fun hpm => ⟨h.1, hpm, h.2.2⟩
    · exact fun _ => h

theorem writeMd_engineInv (i : Idx) (v : Word) (h : EngineInv s) : EngineInv (writeMd i v s) := by
  unfold writeMd
  split <;> exact h

theorem writeReg_engineInv (r : Reg) (v : Word) (h : EngineInv s) : EngineInv (writeReg r v s) := by
  cases r with
  | id | ver | param | pslots | cause | pmaddr => exact h
  | cfg => exact writeCfg_engineInv v h
  | status => exact writeStatus_engineInv v h
  | cmd => exact writeCmd_engineInv v h
  | ctrl => exact writeCtrl_engineInv v h
  | pmdata => exact writePmdata_engineInv v h
  | md i => exact writeMd_engineInv i v h

/-- No register write changes the parameters. -/
theorem writeReg_params (r : Reg) (v : Word) (s : State) : (writeReg r v s).params = s.params := by
  cases r with
  | id | ver | param | pslots | cause | pmaddr => rfl
  | cfg => simp only [writeReg, writeCfg]; split_ifs <;> rfl
  | status => simp only [writeReg, writeStatus]; split_ifs <;> rfl
  | cmd => simp only [writeReg, writeCmd]; split_ifs <;> rfl
  | ctrl =>
    simp only [writeReg, writeCtrl]
    split_ifs
    · rw [softReset_eq]
    · rfl
  | pmdata => simp only [writeReg, writePmdata]; split_ifs <;> rfl
  | md i => simp only [writeReg, writeMd]; split_ifs <;> rfl

/-- A register read writes no field of the invariant. -/
theorem readReg_keeps {r : Reg} {t : State} (h : EngineInv s) (ht : readReg r s = .next t) :
    EngineInv t ∧ t.params = s.params := by
  rcases readReg_cases r s with ⟨v, he⟩ | he | he | ⟨v, he⟩ | he <;> rw [he] at ht <;> cases ht <;> exact ⟨h, rfl⟩

theorem hostAccess_keeps {a : Access} {t : State} (h : EngineInv s) (ht : hostAccess a s = .next t) :
    EngineInv t ∧ t.params = s.params := by
  rcases hostAccess_cases a s with ⟨r, he⟩ | ⟨r, v, he⟩ | he | he | he <;> rw [he] at ht
  · exact readReg_keeps h ht
  · cases ht
    exact ⟨writeReg_engineInv r v h, writeReg_params r v s⟩
  · cases ht
    exact ⟨h, rfl⟩
  · cases ht
    exact ⟨h, rfl⟩
  · cases ht

/-! ## The obligation -/

/-- Each event keeps the invariant and the parameters. -/
theorem handle_keeps {e : Event} {t : State} (h : EngineInv s) (ht : handle e s = .next t) :
    EngineInv t ∧ t.params = s.params := by
  cases e with
  | host a => exact hostAccess_keeps h ht
  | engine => exact engineTurn_keeps h ht
  | powerOn =>
    cases ht
    exact ⟨powerOnReset_engineInv h.1, rfl⟩

/-- Settles O53: a step takes an event off the schedule, of which the invariant does not speak, and handles it. -/
theorem stepKeepsInvariant : Obligations.StepKeepsInvariant := by
  unfold Obligations.StepKeepsInvariant
  intro s t h ht
  cases hsched : s.schedule with
  | nil =>
    rw [step_nil hsched] at ht
    cases ht
    exact ⟨h, rfl⟩
  | cons e rest =>
    rw [step_cons e rest hsched] at ht
    exact handle_keeps (s := { s with schedule := rest }) h ht

end Sys2Proof.Machine
end

section
/-! PROOFS. Whether a pending command ends (70_reset_and_hazards.md rule R243, 93_implementation_defined.md I9): a turn
of the engine ends it, reads of STATUS change nothing, and weak fairness brings the turn. -/

namespace Sys2Proof.Machine

variable {s : State}

/-! ## Polling -/

/-- A read of STATUS delivers it; the state named for the offset need only have the same window. -/
theorem after_poll {t : State} (h : t.params = s.params) :
    after (hostRead s 0x014) t = .next (deliver t.statusWord t) := by
  rw [show hostRead s 0x014 = hostRead t 0x014 by rw [hostRead, hostRead, h]]
  exact after_hostRead (r := .status) rfl

/-- BUSY is bit 0 of STATUS (10_state.md rule R27). -/
theorem statusWord_busy (h : s.pend ≠ none) : s.statusWord.getLsbD 0 = true := by
  rw [getLsbD_statusWord s (by decide), (busy_iff s).2 h]
  rfl

/-- A host that only polls reads one word all the time. -/
theorem runAlong_polls (s : State) (m : Nat) :
    runAlong (fun _ => hostRead s 0x014) s m =
      .next { s with reads := List.replicate m s.statusWord ++ s.reads } := by
  induction m with
  | zero => rfl
  | succ m ih =>
    rw [runAlong_succ ih, List.replicate_succ]
    exact after_poll rfl

/-! ## The engine's turn under weak fairness -/

/-- After a turn of the engine that answers a state nothing is pending. -/
theorem pend_eq_none_of_engineTurn {t : State} (h : engineTurn s = .next t) : t.pend = none := by
  by_cases hp : s.pend = none
  · rw [engineTurn_idle hp] at h
    cases h
    exact hp
  · rcases engineTurn_pending_cases hp with ⟨u, he, hu⟩ | he <;> rw [he] at h <;> cases h
    exact hu.pend_eq_none

/-- The engine's step is not enabled just after it has been taken. -/
theorem not_engineEnabled_succ {σ : Nat → Event} {m : Nat} (h : σ m = .engine) : ¬ EngineEnabled σ s (m + 1) := by
  rintro ⟨t, ht, hp⟩
  obtain ⟨u, -, hu⟩ := runAlong_prefix ht
  rw [h] at hu
  exact hp (pend_eq_none_of_engineTurn hu)

/-- Under weak fairness the engine's step does not stay enabled. -/
theorem exists_not_engineEnabled {σ : Nat → Event} (hfair : WeaklyFair σ s) : ∃ m, ¬ EngineEnabled σ s m := by
  by_contra hall
  push Not at hall
  obtain ⟨j, -, hj⟩ := hfair 0 fun j _ => hall j
  exact not_engineEnabled_succ hj (hall (j + 1))

/-! ## The poll loop -/

/-- A turn of the engine or a poll, in a state with the parameters p: the run goes on, with nothing pending if nothing
was, or ends in the fault of an unwritten word, which only a pending command can reach. -/
theorem poll_or_turn {e : Event} {t : State} (he : e = .engine ∨ e = hostRead s 0x014) (ht : t.params = s.params) :
    (∃ u, after e t = .next u ∧ u.params = s.params ∧ (t.pend = none → u.pend = none)) ∨
      t.pend ≠ none ∧ after e t = .fault .unwrittenWord := by
  rcases he with rfl | rfl
  · by_cases hp : t.pend = none
    · exact .inl ⟨t, engineTurn_idle hp, ht, id⟩
    · rcases engineTurn_pending_cases hp with ⟨u, hu, hans⟩ | hu
      · exact .inl ⟨u, hu, hans.params_eq.trans ht, fun h => absurd h hp⟩
      · exact .inr ⟨hp, hu⟩
  · exact .inl ⟨_, after_poll ht, ht, id⟩

/-- Along polls and turns of the engine the run goes on, or the command has faulted. -/
theorem runAlong_polling_cases {σ : Nat → Event} (hσ : ∀ j, σ j = .engine ∨ σ j = hostRead s 0x014) (m : Nat) :
    (∃ t, runAlong σ s m = .next t ∧ t.params = s.params) ∨ runAlong σ s m = .fault .unwrittenWord := by
  induction m with
  | zero => exact .inl ⟨s, rfl, rfl⟩
  | succ m ih =>
    rcases ih with ⟨t, ht, hparams⟩ | hfault
    · rw [runAlong_succ ht]
      rcases poll_or_turn (hσ m) hparams with ⟨u, hu, hup, -⟩ | ⟨-, hu⟩
      · exact .inl ⟨u, hu, hup⟩
      · exact .inr hu
    · exact .inr (by rw [runAlong, hfault])

/-- Once nothing is pending, polls and turns of the engine leave it so. -/
theorem runAlong_stays_idle {σ : Nat → Event} (hσ : ∀ j, σ j = .engine ∨ σ j = hostRead s 0x014) {m : Nat} {t : State}
    (ht : runAlong σ s m = .next t) (hparams : t.params = s.params) (hp : t.pend = none) {j : Nat} (hj : m ≤ j) :
    ∃ u, runAlong σ s j = .next u ∧ u.params = s.params ∧ u.pend = none := by
  induction j, hj using Nat.le_induction with
  | base => exact ⟨t, ht, hparams, hp⟩
  | succ j _ ih =>
    obtain ⟨u, hu, hup, hidle⟩ := ih
    rw [runAlong_succ hu]
    rcases poll_or_turn (hσ j) hup with ⟨u', hu', hup', hkeep⟩ | ⟨hpend, -⟩
    · exact ⟨u', hu', hup', hkeep hidle⟩
    · exact absurd hidle hpend

/-- A poll loop ends at the first point at which the engine's step is not enabled. -/
theorem polling_ends {σ : Nat → Event} (hσ : ∀ j, σ j = .engine ∨ σ j = hostRead s 0x014) {m : Nat}
    (hm : ¬ EngineEnabled σ s m) :
    runAlong σ s m = .fault .unwrittenWord ∨ ∀ j, m ≤ j → ∃ t, runAlong σ s j = .next t ∧ t.pend = none := by
  rcases runAlong_polling_cases hσ m with ⟨t, ht, hparams⟩ | hfault
  · have hp : t.pend = none := by_contra fun hp => hm ⟨t, ht, hp⟩
    refine .inr fun j hj => ?_
    obtain ⟨u, hu, -, hidle⟩ := runAlong_stays_idle hσ ht hparams hp hj
    exact ⟨u, hu, hidle⟩
  · exact .inl hfault

/-- Settles O55: weak fairness gives a point at which the engine's step is not enabled, and a poll loop ends there. -/
theorem pendingCommandEndsOnlyUnderWeakFairness : Obligations.PendingCommandEndsOnlyUnderWeakFairness := by
  unfold Obligations.PendingCommandEndsOnlyUnderWeakFairness
  refine ⟨fun s => step_nil, fun s m hp => ⟨s.statusWord, statusWord_busy hp, runAlong_polls s m⟩,
    fun σ s hfair _ => ?_⟩
  obtain ⟨m, hm⟩ := exists_not_engineEnabled hfair
  exact ⟨⟨m, hm⟩, fun hσ => ⟨m, polling_ends hσ hm⟩⟩

end Sys2Proof.Machine
end

section
/-! PROOFS. The engine's turn, and the host's accesses to a machine with a command pending (20_memory.md rules R60, R65 to
R71, R74; 60_exceptions.md rule R211). -/

namespace Sys2Proof.Machine

open Sys2Proof.Spec

/-! ## The engine's turn -/

/-- Settles O5: with the turn next, a step and `after` both come to the engine's turn on a pending word that decodes. -/
theorem stepRunsTheDecodedCommand : Obligations.StepRunsTheDecodedCommand := by
  unfold Obligations.StepRunsTheDecodedCommand
  intro s w i hw hd
  refine ⟨engineTurn_of_ok hw hd, fun rest hsched => ?_⟩
  rw [step_cons .engine rest hsched]
  exact engineTurn_of_ok (s := { s with schedule := rest }) hw hd

/-- Raising an error sets ERR and completing sets DONE, each from a state in which both are 0 (60_exceptions.md rule
R211). -/
theorem Answers.err_eq_not_done {i : Instr} {s t : State} (h : Answers i s t) (hdone : s.done = false)
    (herr : s.err = false) : t.err = !t.done := by
  cases h with
  | raises => rw [raiseError_err, raiseError_done, hdone]; rfl
  | nop | stores | checks => exact herr

theorem TurnAnswers.err_eq_not_done {s t : State} (h : TurnAnswers s t) (hdone : s.done = false)
    (herr : s.err = false) : t.err = !t.done := by
  cases h with
  | raises => rw [raiseError_err, raiseError_done, hdone]; rfl
  | runs h => exact h.err_eq_not_done hdone herr

/-- Settles O29: the invariant says that DONE and ERR are 0 while a command is pending, and its end sets one of them. -/
theorem commandEndsWithDoneOrErr : Obligations.CommandEndsWithDoneOrErr := by
  unfold Obligations.CommandEndsWithDoneOrErr
  intro s t hinv hp h
  obtain ⟨-, -, -, -, hpend, -⟩ := hinv
  obtain ⟨-, hdone, herr⟩ := hpend (Option.isSome_iff_ne_none.2 hp)
  rw [after_eq_handle, handle] at h
  rcases engineTurn_pending_cases hp with ⟨u, he, hu⟩ | he <;> rw [he] at h <;> cases h
  exact ⟨hu.pend_eq_none, hu.err_eq_not_done hdone herr⟩

/-! ## Accesses outside the window -/

theorem inWindow_eq_false {p : Config.Params} {addr : Nat} (h : addr < p.hostBase ∨ p.hostBase + 0x100 ≤ addr) :
    inWindow p addr = false := by
  rw [inWindow, Bool.and_eq_false_iff, decide_eq_false_iff_not, decide_eq_false_iff_not]
  omega

/-- Settles O48: the window check fails, for a read and for a write. -/
theorem accessOutsideWindowIsRefused : Obligations.AccessOutsideWindowIsRefused := by
  unfold Obligations.AccessOutsideWindowIsRefused
  intro s addr width v haddr
  have hout := inWindow_eq_false haddr
  constructor <;> simp [after_eq_handle, handle, hostAccess, hout]

/-! ## PMDATA writes -/

/-- A read of PM after one word of it is written. -/
theorem Memory.read_write {m : Memory} (h : m.wf = true) (a a' : Nat) (v : Word) :
    (m.write a v).read a' = if a' = a then some v else m.read a' := by
  split
  · rename_i heq
    rw [heq, Memory.read_write_same h]
  · exact Memory.read_write_other h v ‹_›

/-- Settles O41: the branches of `writePmdata`, with the advance of the port. -/
theorem pmdataWriteRule : Obligations.PmdataWriteRule := by
  unfold Obligations.PmdataWriteRule
  intro s v hwf
  refine ⟨_, after_hostWrite v (r := .pmdata) rfl, ?_⟩
  rw [writeReg, writePmdata, ite_busy]
  split
  case isTrue => rfl
  case isFalse =>
  simp only [pmInRange_iff, ite_not]
  split
  case isTrue => rfl
  case isFalse =>
  refine ⟨?_, fun a => Memory.read_write hwf _ a v⟩
  rw [← pmNext_eq_portNext]
  rfl

/-! ## Accesses while a command is pending -/

/-- What a pending command works on is as it was: CFG, the descriptors, PM, the command and LASTCMD (20_memory.md rule
R68). -/
def OperandsKept (s t : State) : Prop :=
  t.cfg = s.cfg ∧ t.md = s.md ∧ t.pm = s.pm ∧ t.pend = s.pend ∧ t.lastCmd = s.lastCmd

theorem OperandsKept.refl (s : State) : OperandsKept s s := ⟨rfl, rfl, rfl, rfl, rfl⟩

theorem setHaz_operandsKept (s : State) : OperandsKept s s.setHaz := ⟨rfl, rfl, rfl, rfl, rfl⟩

theorem setAerr_operandsKept (s : State) : OperandsKept s s.setAerr := ⟨rfl, rfl, rfl, rfl, rfl⟩

theorem readReg_operandsKept {r : Reg} {s t : State} (h : readReg r s = .next t) : OperandsKept s t := by
  rcases readReg_cases r s with ⟨v, he⟩ | he | he | ⟨v, he⟩ | he <;> rw [he] at h <;> cases h <;>
    exact ⟨rfl, rfl, rfl, rfl, rfl⟩

theorem writeStatus_operandsKept (v : Word) (s : State) : OperandsKept s (writeStatus v s) := by
  unfold writeStatus
  split <;> exact ⟨rfl, rfl, rfl, rfl, rfl⟩

/-- A soft reset ends the pending state; any other write of CTRL writes IE only (10_state.md rule R33). -/
theorem writeCtrl_operandsKept {v : Word} {s : State} (h : (writeCtrl v s).pend ≠ none) :
    OperandsKept s (writeCtrl v s) := by
  rw [writeCtrl] at h ⊢
  split
  · rename_i hreset
    rw [if_pos hreset] at h
    exact absurd rfl h
  · exact ⟨rfl, rfl, rfl, rfl, rfl⟩

/-- Every write of a register that a pending command depends on is dropped with HAZ (20_memory.md rule R68). -/
theorem writeReg_operandsKept {r : Reg} {v : Word} {s : State} (hbusy : s.busy = true)
    (h : (writeReg r v s).pend ≠ none) : OperandsKept s (writeReg r v s) := by
  cases r with
  | id | ver | param | pslots | cause => exact .refl s
  | pmaddr => exact ⟨rfl, rfl, rfl, rfl, rfl⟩
  | status => exact writeStatus_operandsKept v s
  | ctrl => exact writeCtrl_operandsKept h
  | cfg => rw [writeReg, writeCfg, if_pos hbusy]; exact setHaz_operandsKept s
  | cmd => rw [writeReg, writeCmd, if_pos hbusy]; exact setHaz_operandsKept s
  | pmdata => rw [writeReg, writePmdata, if_pos hbusy]; exact setHaz_operandsKept s
  | md i => rw [writeReg, writeMd, if_pos hbusy]; exact setHaz_operandsKept s

/-- Settles O49: by what a host access can be; of the writes that are not dropped only a soft reset touches an operand. -/
theorem pendingCommandsOperandsAreFrozen : Obligations.PendingCommandsOperandsAreFrozen := by
  unfold Obligations.PendingCommandsOperandsAreFrozen
  intro s t a hp h hpt
  rw [after_eq_handle, handle] at h
  rcases hostAccess_cases a s with ⟨r, he⟩ | ⟨r, v, he⟩ | he | he | he <;> rw [he] at h
  · exact readReg_operandsKept h
  · cases h
    exact writeReg_operandsKept ((busy_iff s).2 hp) hpt
  · cases h
    exact setAerr_operandsKept s
  · cases h
    exact setAerr_operandsKept s
  · cases h

end Sys2Proof.Machine
end

section
/-! PROOFS. The words n to NMAX-1 of a slot (20_memory.md rule R78): no command writes them, since a store writes words
below n only, and none reads them, since a fetch does. -/

namespace Sys2Proof.Machine

open Sys2Proof.Spec

/-! ## No command writes them -/

/-- A store leaves the tail words alone: n is at most NMAX, so no two words of PM share an address here. -/
theorem store_pmWord_tail {s : State} (hw : s.pm.wf = true) (hc : s.cfgOk = true) (d : Word) (M : Mat) {slot x : Nat}
    (hx : s.ring.n ≤ x) (hmax : x < s.params.nmax) : (store d M s).pmWord slot x = s.pmWord slot x := by
  refine store_read_other hw M fun r _ c _ t ht heq => ?_
  obtain ⟨-, rfl⟩ := wordAddr_inj hmax (ht.trans_le (ring_n_le_nmax hc)) heq
  omega

/-- Settles O34: only a store changes PM. -/
theorem commandsLeaveTailWordsAlone : Obligations.CommandsLeaveTailWordsAlone := by
  unfold Obligations.CommandsLeaveTailWordsAlone
  intro i s t hw h slot x hx hmax
  cases answers_of_exec h with
  | stores hc => exact store_pmWord_tail hw hc _ _ hx hmax
  | nop | raises | checks => rfl

/-! ## No command reads them -/

theorem matOfCoefs_congr {r c n : Nat} {f g : Nat → Nat → Nat → Nat}
    (h : ∀ i < r, ∀ j < c, ∀ t < n, f i j t = g i j t) : matOfCoefs r c n f = matOfCoefs r c n g := by
  simp only [matOfCoefs, matOf, elemOf, Mat.mk.injEq, true_and, List.map_inj_left, List.mem_range]
  exact h

variable {s : State} {m : Memory}

/-- A fetch reads words below n only (20_memory.md rule R63). -/
theorem fetch_eq_of_sameElements (h : SameElements s { s with pm := m }) (d : Word) :
    fetch { s with pm := m } d = fetch s d := by
  have hable : fetchable { s with pm := m } d = fetchable s d := by
    rw [Bool.eq_iff_iff, fetchable_iff, fetchable_iff]
    exact forall₄_congr fun r _ c _ => forall₂_congr fun t ht => by rw [h _ t ht]
  have hoperand : operand { s with pm := m } d = operand s d :=
    matOfCoefs_congr fun r _ c _ t ht => by rw [h _ t ht]; rfl
  rw [fetch, fetch, hable, hoperand]

/-- What the rule of a command makes of two states: the same store, the same band flag, or the same fault. -/
inductive RuleAlike (s s' : State) : Except Fault State → Except Fault State → Prop
  | stores (d : Word) (M : Mat) : RuleAlike s s' (.ok (store d M s)) (.ok (store d M s'))
  | checks (b : Bool) : RuleAlike s s' (.ok { s with chk := b }) (.ok { s' with chk := b })
  | faults (r : Fault) : RuleAlike s s' (.error r) (.error r)

theorem ruleAlike_fetch (h : SameElements s { s with pm := m }) (d : Word) {g g' : Mat → Except Fault State}
    (hg : ∀ M, RuleAlike s { s with pm := m } (g M) (g' M)) :
    RuleAlike s { s with pm := m } (fetch s d >>= g) (fetch { s with pm := m } d >>= g') := by
  rw [fetch_eq_of_sameElements h]
  cases fetch s d with
  | ok M => exact hg M
  | error r => exact .faults r

/-- Every command but NOP makes the same checks in the two states, and its rule fetches alike. -/
theorem exec_ruleAlike {i : Instr} (hi : i ≠ .nop) (h : SameElements s { s with pm := m }) :
    ∃ used ok p p', exec i s = runCommand i.opcode used ok p s ∧
      exec i { s with pm := m } = runCommand i.opcode used ok p' { s with pm := m } ∧
      RuleAlike s { s with pm := m } p p' := by
  cases i with
  | nop => exact absurd rfl hi
  | mneg d a | mident d a | mcopy d a | mtrans d a | pow2 d a | bdec d a | bdinv d a | flat d a | skgen d a | pkgen d a =>
    exact ⟨_, _, _, _, rfl, rfl, ruleAlike_fetch h _ fun _ => .stores _ _⟩
  | madd d a b | msub d a b | mmul d a b | mscale d a b | dec d a b | hmc d a b | hadd d a b =>
    exact ⟨_, _, _, _, rfl, rfl, ruleAlike_fetch h _ fun _ => ruleAlike_fetch h _ fun _ => .stores _ _⟩
  | enc d a b c =>
    exact ⟨_, _, _, _, rfl, rfl, ruleAlike_fetch h _ fun _ => ruleAlike_fetch h _ fun _ => ruleAlike_fetch h _ fun _ =>
      .stores _ _⟩
  | chksk a b =>
    exact ⟨_, _, _, _, rfl, rfl, ruleAlike_fetch h _ fun _ => ruleAlike_fetch h _ fun _ => .checks _⟩

/-- The same store makes the same elements: the words it writes are the matrix's, and below n the others agree. -/
theorem store_sameElements (h : SameElements s { s with pm := m }) (hw : s.pm.wf = true) (hm : m.wf = true)
    (hc : s.cfgOk = true) (d : Word) (M : Mat) : SameElements (store d M s) (store d M { s with pm := m }) := by
  intro slot x hx
  by_cases hin : ∃ r < descRows d, ∃ c < descCols d, slot = descSlot d r c
  · obtain ⟨r, hr, c, hcol, rfl⟩ := hin
    rw [store_pmWord hw hc M hr hcol hx, store_pmWord (s := { s with pm := m }) hm hc M hr hcol hx]
  · have hout : ∀ r < descRows d, ∀ c < descCols d, ∀ t < s.ring.n,
        wordAddr s.params slot x ≠ wordAddr s.params (descSlot d r c) t := fun r hr c hcol t ht heq =>
      hin ⟨r, hr, c, hcol, (wordAddr_inj (hx.trans_le (ring_n_le_nmax hc)) (ht.trans_le (ring_n_le_nmax hc)) heq).1⟩
    calc (store d M s).pmWord slot x = s.pmWord slot x := store_read_other hw M hout
      _ = ({ s with pm := m } : State).pmWord slot x := h slot x hx
      _ = (store d M { s with pm := m }).pmWord slot x :=
          (store_read_other (s := { s with pm := m }) hm M hout).symm

/-- Two answers to one command: states that agree but for PM's tail words, or one fault. -/
inductive OutcomeAlike : Host.Outcome State Fault Refusal → Host.Outcome State Fault Refusal → Prop
  | next {t t' : State} : SameButPm t t' → SameElements t t' → OutcomeAlike (.next t) (.next t')
  | fault (r : Fault) : OutcomeAlike (.fault r) (.fault r)

/-- The checks look at no word of PM, so both runs stop at the same one, or come to the rule. -/
theorem runCommand_outcomeAlike (h : SameElements s { s with pm := m }) (hw : s.pm.wf = true) (hm : m.wf = true)
    (opc : Opcode) (used : List (OperandField × Idx)) (ok : Bool) {p p' : Except Fault State}
    (hp : RuleAlike s { s with pm := m } p p') :
    OutcomeAlike (runCommand opc used ok p s) (runCommand opc used ok p' { s with pm := m }) := by
  have hfirst : firstInvalid { s with pm := m } used = firstInvalid s used := by
    induction used with
    | nil => rfl
    | cons u rest ih => simp only [firstInvalid, ih]; rfl
  simp only [runCommand, hfirst, show ({ s with pm := m } : State).cfgOk = s.cfgOk from rfl]
  cases hc : s.cfgOk with
  | false => exact .next rfl h
  | true =>
    cases firstInvalid s used with
    | some f => exact .next rfl h
    | none =>
      cases ok with
      | false => exact .next rfl h
      | true =>
        cases hp with
        | stores d M => exact .next rfl (store_sameElements h hw hm hc d M)
        | checks b => exact .next rfl h
        | faults r => exact .fault r

theorem exec_outcomeAlike (i : Instr) (h : SameElements s { s with pm := m }) (hw : s.pm.wf = true)
    (hm : m.wf = true) : OutcomeAlike (exec i s) (exec i { s with pm := m }) := by
  by_cases hi : i = .nop
  · rw [hi]
    exact .next rfl h
  · obtain ⟨used, ok, p, p', he, he', hp⟩ := exec_ruleAlike hi h
    rw [he, he']
    exact runCommand_outcomeAlike h hw hm _ used ok hp

/-- Settles O35: the second state is the first with another PM. -/
theorem tailWordsDoNotInfluenceCommands : Obligations.TailWordsDoNotInfluenceCommands := by
  unfold Obligations.TailWordsDoNotInfluenceCommands
  intro i s s' hw hw' hbut helems
  rw [SameButPm] at hbut
  have halike := exec_outcomeAlike (m := s'.pm) i (hbut ▸ helems) hw hw'
  rw [← hbut] at halike
  generalize exec i s = o, exec i s' = o' at halike
  cases halike with
  | next hbut' helems' => exact ⟨hbut', helems'⟩
  | fault r => rfl

end Sys2Proof.Machine
end

section
/-! PROOFS. The coefficients of what the commands compute, as the formulas of the rules: each ring, gadget and ciphertext
operation takes matrices that hold given coefficients to a matrix that holds the formula's (40_ring.md, 41_gadget.md,
42_gsw.md). -/

namespace Sys2Proof.Machine

open Sys2Proof.Spec

/-- The matrix is r×c and holds the coefficients f, below the degree bound n. -/
structure HasCoefs (R : RingCtx) (M : Mat) (r c : Nat) (f : Coefs) : Prop where
  rows : M.rows = r
  cols : M.cols = c
  coef : ∀ i < r, ∀ j < c, ∀ t < R.n, M.coef i j t = f i j t

variable {R : RingCtx} {A B M : Mat} {r c m : Nat} {f g : Coefs}

theorem HasCoefs.congr (h : HasCoefs R M r c f) (hfg : ∀ i < r, ∀ j < c, ∀ t < R.n, f i j t = g i j t) :
    HasCoefs R M r c g :=
  ⟨h.rows, h.cols, fun i hi j hj t ht => (h.coef i hi j hj t ht).trans (hfg i hi j hj t ht)⟩

theorem hasCoefs_matOf {F : Nat → Nat → Elem} (h : ∀ i < r, ∀ j < c, ∀ t < R.n, coeff (F i j) t = f i j t) :
    HasCoefs R (matOf r c F) r c f :=
  ⟨rfl, rfl, fun i hi j hj t ht => (coef_matOf F t hi hj).trans (h i hi j hj t ht)⟩

/-- A fetched operand holds the residues of its words (20_memory.md rule R63). -/
theorem hasCoefs_operand {s : State} {i : Idx} (h : HasShape s i r c) :
    HasCoefs s.ring (operand s (s.desc i)) r c (residue s i) := by
  obtain ⟨rfl, rfl⟩ := h
  exact ⟨rfl, rfl, fun a ha b hb t ht => coef_operand_eq_residue s i ha hb ht⟩

/-! ## Ring operations (40_ring.md rules R111 to R113, R118, R121) -/

/-- For one i the rule's double sum has one term: j = t - i, or j = t + n - i when that is negative (rule R111). -/
theorem negacyclic_inner_sum {n i t : Nat} (hi : i < n) (ht : t < n) (x : Int) (b : Nat → Nat) :
    (∑ j ∈ Finset.range n, if i + j = t then x * b j else if i + j = t + n then -(x * b j) else 0) =
      if i ≤ t then x * b (t - i) else -(x * b (t + n - i)) := by
  split
  case isTrue hle =>
    rw [Finset.sum_eq_single (t - i)]
    · rw [if_pos (by omega)]
    · intro j hj hne
      rw [Finset.mem_range] at hj
      rw [if_neg (by omega), if_neg (by omega)]
    · intro hout
      rw [Finset.mem_range] at hout
      omega
  case isFalse hgt =>
    rw [Finset.sum_eq_single (t + n - i)]
    · rw [if_neg (by omega), if_pos (by omega)]
    · intro j hj hne
      rw [if_neg (by omega), if_neg (by omega)]
    · intro hout
      rw [Finset.mem_range] at hout
      omega

/-- The multiplier's one sum is the rule's double sum (rule R111). -/
theorem coeff_polyMul_eq_negacyclic (R : RingCtx) (a b : Elem) {t : Nat} (ht : t < R.n) :
    coeff (polyMul R a b) t = residueOf R.q (negacyclic R.n (coeff a) (coeff b) t) := by
  rw [coeff_polyMul R a b ht, sumTo_eq_sum, negacyclic]
  refine congrArg (modq R) (Finset.sum_congr rfl fun i hi => ?_)
  exact (negacyclic_inner_sum (Finset.mem_range.1 hi) ht (coeff a i) (coeff b)).symm

/-- The double sum looks at coefficients below n only. -/
theorem negacyclic_congr {n : Nat} {a a' b b' : Nat → Nat} (ha : ∀ i < n, a i = a' i) (hb : ∀ j < n, b j = b' j)
    (t : Nat) : negacyclic n a b t = negacyclic n a' b' t := by
  refine Finset.sum_congr rfl fun i hi => Finset.sum_congr rfl fun j hj => ?_
  rw [ha i (Finset.mem_range.1 hi), hb j (Finset.mem_range.1 hj)]

/-- A ring product from the coefficients of its factors. -/
theorem coeff_polyMul_of_coeffs {a b : Elem} {x y : Nat → Nat} (ha : ∀ i < R.n, coeff a i = x i)
    (hb : ∀ i < R.n, coeff b i = y i) {t : Nat} (ht : t < R.n) :
    coeff (polyMul R a b) t = residueOf R.q (negacyclic R.n x y t) := by
  rw [coeff_polyMul_eq_negacyclic R a b ht, negacyclic_congr ha hb]

theorem hasCoefs_madd (hA : HasCoefs R A r c f) (hB : HasCoefs R B r c g) :
    HasCoefs R (madd R A B) r c (plus R.q f g) := by
  obtain ⟨rfl, rfl, hf⟩ := hA
  refine ⟨rfl, rfl, fun i hi j hj t ht => ?_⟩
  rw [coef_madd R A B hi hj ht, hf i hi j hj t ht, hB.coef i hi j hj t ht, ← Nat.cast_add, modq_natCast, plus]

theorem hasCoefs_msub (hA : HasCoefs R A r c f) (hB : HasCoefs R B r c g) :
    HasCoefs R (msub R A B) r c fun i j t => residueOf R.q ((f i j t : Int) - g i j t) := by
  obtain ⟨rfl, rfl, hf⟩ := hA
  refine ⟨rfl, rfl, fun i hi j hj t ht => ?_⟩
  rw [coef_msub R A B hi hj ht, hf i hi j hj t ht, hB.coef i hi j hj t ht]
  rfl

theorem hasCoefs_mneg (hA : HasCoefs R A r c f) :
    HasCoefs R (mneg R A) r c fun i j t => residueOf R.q (-(f i j t : Int)) := by
  obtain ⟨rfl, rfl, hf⟩ := hA
  refine ⟨rfl, rfl, fun i hi j hj t ht => ?_⟩
  rw [coef_mneg R A hi hj ht, hf i hi j hj t ht]
  rfl

/-- Reducing the terms of a sum does not change its residue (rule R110). -/
theorem modq_sumTo_modq (R : RingCtx) (m : Nat) (v : Nat → Int) :
    modq R (sumTo m fun l => (modq R (v l) : Int)) = modq R (∑ l ∈ Finset.range m, v l) := by
  refine modq_congr R ?_
  simp only [modq_cast, sumTo_eq_sum]
  exact (Finset.sum_int_mod _ _ _).symm

theorem hasCoefs_mmul (hA : HasCoefs R A r m f) (hB : HasCoefs R B m c g) :
    HasCoefs R (mmul R A B) r c (product R.q R.n m f g) := by
  obtain ⟨rfl, rfl, hf⟩ := hA
  obtain ⟨-, rfl, hg⟩ := hB
  refine ⟨rfl, rfl, fun i hi j hj t ht => ?_⟩
  rw [coef_mmul R A B hi hj ht, product]
  refine Eq.trans ?_ (modq_sumTo_modq R A.cols _)
  refine congrArg (modq R) (sumTo_congr fun l hl => congrArg Nat.cast ?_)
  exact coeff_polyMul_of_coeffs (hf i hi l hl) (hg l hl j hj) ht

theorem hasCoefs_mscale {e : Elem} {x : Nat → Nat} (he : ∀ t < R.n, coeff e t = x t) (hA : HasCoefs R A r c f) :
    HasCoefs R (mscale R e A) r c fun i j t => residueOf R.q (negacyclic R.n x (f i j) t) := by
  obtain ⟨rfl, rfl, hf⟩ := hA
  exact hasCoefs_matOf fun i hi j hj t ht => coeff_polyMul_of_coeffs he (hf i hi j hj) ht

theorem hasCoefs_ident {e : Elem} {x : Nat → Nat} (he : ∀ t < R.n, coeff e t = x t) :
    HasCoefs R (ident R e) (2 * R.k) (2 * R.k) (diagonal x) := by
  refine ⟨rfl, rfl, fun i hi j hj t ht => ?_⟩
  rw [coef_ident R e t hi hj, he t ht, diagonal]

theorem hasCoefs_transpose (hA : HasCoefs R A r c f) : HasCoefs R (transpose A) c r fun i j t => f j i t := by
  obtain ⟨rfl, rfl, hf⟩ := hA
  refine ⟨rfl, rfl, fun i hi j hj t ht => ?_⟩
  rw [coef_transpose A t hj hi, hf j hj i hi t ht]

theorem hasCoefs_topRows (hA : HasCoefs R A r c f) (hm : m ≤ r) : HasCoefs R (topRows m A) m c f := by
  obtain ⟨rfl, rfl, hf⟩ := hA
  exact hasCoefs_matOf fun i hi j hj t ht => hf i (hi.trans_le hm) j hj t ht

/-! ## The gadget functions (41_gadget.md rules R140 to R143) -/

/-- The column group of a gadget column. -/
theorem column_group_lt {k j : Nat} (hj : j < c * k) : j / k < c := Nat.div_lt_of_lt_mul (by rwa [Nat.mul_comm])

/-- The columns of a group. -/
theorem group_column_lt {k j l : Nat} (hj : j < c) (hl : l < k) : j * k + l < c * k := by
  have : (j + 1) * k ≤ c * k := Nat.mul_le_mul_right k hj
  rw [Nat.add_mul, Nat.one_mul] at this
  omega

theorem hasCoefs_pow2 (hA : HasCoefs R A r c f) : HasCoefs R (pow2 R A) r (c * R.k) (powers R.q R.k f) := by
  obtain ⟨rfl, rfl, hf⟩ := hA
  refine ⟨rfl, rfl, fun i hi j hj t ht => ?_⟩
  rw [coef_pow2 R A hi hj ht, hf i hi _ (column_group_lt hj) t ht, powers]

theorem hasCoefs_bdec (hA : HasCoefs R A r c f) : HasCoefs R (bdec R A) r (c * R.k) (bits R.k f) := by
  obtain ⟨rfl, rfl, hf⟩ := hA
  refine ⟨rfl, rfl, fun i hi j hj t ht => ?_⟩
  rw [coef_bdec R A hi hj ht, hf i hi _ (column_group_lt hj) t ht, bits, bitOf]

theorem hasCoefs_bdinv (hk : 1 ≤ R.k) (hA : HasCoefs R A r (c * R.k) f) :
    HasCoefs R (bdinv R A) r c (unbits R.q R.k f) := by
  obtain ⟨rfl, hcols, hf⟩ := hA
  have hdiv : A.cols / R.k = c := by rw [hcols, Nat.mul_div_cancel c hk]
  refine ⟨rfl, hdiv, fun i hi j hj t ht => ?_⟩
  rw [coef_bdinv R A hi (hdiv.symm ▸ hj) ht, unbits]
  congr 1
  refine Finset.sum_congr rfl fun l hl => ?_
  rw [hf i hi _ (group_column_lt hj (Finset.mem_range.1 hl)) t ht]

theorem hasCoefs_flat (hk : 1 ≤ R.k) (hA : HasCoefs R A r (c * R.k) f) :
    HasCoefs R (flat R A) r (c * R.k) (flatten R.q R.k f) :=
  hasCoefs_bdec (hasCoefs_bdinv hk hA)

/-! ## The ciphertext unit (42_gsw.md rules R161 to R171) -/

/-- The coefficients of a SecretKey column (rule R162). -/
theorem hasCoefs_secretKey {e : Elem} {x : Nat → Nat} (he : ∀ t < R.n, coeff e t = x t) :
    HasCoefs R (secretKey R e) (2 * R.k) 1 fun l _ t =>
      if l < R.k then (if t = 0 then 2 ^ l else 0) else 2 ^ (l - R.k) * residueOf R.q (-(x t : Int)) % R.q := by
  have hrow : HasCoefs R (matOf 1 2 fun _ j => if j = 0 then constElem R 1 else polyNeg R e) 1 2 fun _ j t =>
      if j = 0 then (if t = 0 then 1 % R.q else 0) else residueOf R.q (-(x t : Int)) := by
    refine hasCoefs_matOf fun i _ j _ t ht => ?_
    split
    · exact (coeff_elemOf _ ht).trans (by rw [← Nat.cast_one, modq_natCast])
    · rw [coeff_polyNeg R e ht, he t ht]
      rfl
  refine (hasCoefs_transpose (hasCoefs_pow2 hrow)).congr fun l hl _ _ t _ => ?_
  simp only [powers]
  by_cases hlow : l < R.k
  · have hq : 2 ^ l < R.q := Nat.pow_lt_pow_right (by decide) hlow
    rw [if_pos hlow, Nat.mod_eq_of_lt hlow, if_pos (Nat.div_eq_of_lt hlow)]
    split
    · rw [Nat.mul_mod_mod, Nat.mul_one, Nat.mod_eq_of_lt hq]
    · rw [Nat.mul_zero, Nat.zero_mod]
  · obtain ⟨d, rfl⟩ := Nat.exists_eq_add_of_le (Nat.le_of_not_lt hlow)
    have hd : d < R.k := by omega
    rw [if_neg hlow, Nat.add_mod_left, Nat.mod_eq_of_lt hd, Nat.add_div_left d (by omega), Nat.div_eq_of_lt hd,
      if_neg (by decide), Nat.add_sub_cancel_left]

/-- The coefficients of a PublicKey row (rule R164). -/
theorem hasCoefs_publicKey {t b e : Elem} {x y z : Nat → Nat} (ht : ∀ i < R.n, coeff t i = x i)
    (hb : ∀ i < R.n, coeff b i = y i) (he : ∀ i < R.n, coeff e i = z i) :
    HasCoefs R (publicKey R t b e) 1 2 fun _ j i =>
      if j = 0 then residueOf R.q (negacyclic R.n y x i + z i) else y i := by
  refine hasCoefs_matOf fun _ _ j _ i hi => ?_
  split
  · rw [coeff_polyAdd R _ _ hi, coeff_polyMul_of_coeffs hb ht hi, he i hi]
    refine modq_congr R ?_
    rw [show residueOf R.q (negacyclic R.n y x i) = modq R (negacyclic R.n y x i) from rfl, modq_cast,
      Int.emod_add_emod]
  · exact hb i hi

theorem band_iff (R : RingCtx) (b : Int) : band R b = true ↔ InBand R.q b := by
  rw [band, Bool.and_eq_true, decide_eq_true_eq, decide_eq_true_eq, InBand]

end Sys2Proof.Machine
end

section
/-! PROOFS. The decoder (42_gsw.md rules R166 to R168): each level settles one bit of the running integer, above all bits
that are known, and no later level changes it. -/

namespace Sys2Proof.Machine

open Sys2Proof.Spec

variable {R : RingCtx}

/-- The band test of level j on the running integer z (rules R166, R167). -/
def levelTest (R : RingCtx) (reduce : Bool) (v : Nat → Nat) (j z : Nat) : Bool :=
  let b : Int := (v j : Int) - (z : Int) * (2 ^ j : Nat)
  band R (if reduce then (modq R b : Int) else b)

theorem levelTest_iff (reduce : Bool) (v : Nat → Nat) (j z : Nat) :
    levelTest R reduce v j z = true ↔
      let b : Int := (v j : Int) - ((z * 2 ^ j : Nat) : Int)
      InBand R.q (if reduce then (residueOf R.q b : Int) else b) := by
  rw [levelTest, band_iff, Nat.cast_mul]
  exact Iff.rfl

theorem decodeLevels_succ (reduce : Bool) (v : Nat → Nat) (j z : Nat) :
    decodeLevels R reduce v (j + 1) z =
      decodeLevels R reduce v j (if levelTest R reduce v j z then z + 2 ^ (R.k - 1 - j) else z) := rfl

/-- The decoder looks at the values of the levels it passes only. -/
theorem decodeLevels_congr (reduce : Bool) {v w : Nat → Nat} {j : Nat} (h : ∀ i < j, v i = w i) (z : Nat) :
    decodeLevels R reduce v j z = decodeLevels R reduce w j z := by
  induction j generalizing z with
  | zero => rfl
  | succ j ih =>
    have htest : levelTest R reduce v j z = levelTest R reduce w j z := by rw [levelTest, levelTest, h j (by omega)]
    rw [decodeLevels_succ, decodeLevels_succ, htest, ih fun i hi => h i (by omega)]

/-- Bit e over the e low bits z: the low bits stay, and bit e reads as it was set. -/
theorem low_bits_and_top_bit {w z e : Nat} {p : Bool} (hz : z < 2 ^ e)
    (hw : w % 2 ^ (e + 1) = if p then z + 2 ^ e else z) : w % 2 ^ e = z ∧ (w / 2 ^ e % 2 = 1 ↔ p = true) := by
  have hlow : w % 2 ^ (e + 1) % 2 ^ e = w % 2 ^ e := Nat.mod_mod_of_dvd w (pow_dvd_pow 2 (Nat.le_succ e))
  have hhigh : w % 2 ^ (e + 1) / 2 ^ e = w / 2 ^ e % 2 := by rw [pow_succ, Nat.mod_mul_right_div_self]
  rw [← hlow, ← hhigh, hw]
  cases p <;> simp [Nat.mod_eq_of_lt hz, Nat.div_eq_of_lt hz]

/-- Levels j-1 to 0 keep the k-j low bits they start from, and set bit k-1-i by the band test of level i on the bits
below it. -/
theorem decodeLevels_spec (reduce : Bool) (v : Nat → Nat) {j z : Nat} (hj : j ≤ R.k) (hz : z < 2 ^ (R.k - j)) :
    decodeLevels R reduce v j z % 2 ^ (R.k - j) = z ∧
      ∀ i < j, (decodeLevels R reduce v j z / 2 ^ (R.k - 1 - i) % 2 = 1 ↔
        levelTest R reduce v i (decodeLevels R reduce v j z % 2 ^ (R.k - 1 - i)) = true) := by
  induction j generalizing z with
  | zero => exact ⟨Nat.mod_eq_of_lt hz, by simp⟩
  | succ j ih =>
    rw [show R.k - (j + 1) = R.k - 1 - j by omega] at hz ⊢
    rw [decodeLevels_succ]
    have hsize : R.k - j = R.k - 1 - j + 1 := by omega
    have hz' : (if levelTest R reduce v j z then z + 2 ^ (R.k - 1 - j) else z) < 2 ^ (R.k - 1 - j + 1) := by
      rw [pow_succ]
      split <;> omega
    obtain ⟨hmod, hbits⟩ := ih (by omega) (hsize ▸ hz')
    obtain ⟨hlow, htop⟩ := low_bits_and_top_bit hz (hsize ▸ hmod)
    refine ⟨hlow, fun i hi => ?_⟩
    rcases Nat.lt_succ_iff_lt_or_eq.1 hi with hlt | rfl
    · exact hbits i hlt
    · rw [htop, hlow]

/-- What the decoder answers is what its rule asks for. -/
theorem decodes_decodeLevels (reduce : Bool) (v : Nat → Nat) :
    Decodes R.q R.k reduce v (decodeLevels R reduce v R.k 0) := by
  refine ⟨decodeLevels_lt reduce v le_rfl (by simp), fun j hj => ?_⟩
  obtain ⟨-, hbits⟩ := decodeLevels_spec (R := R) reduce v (z := 0) le_rfl (by simp)
  exact (hbits j hj).trans (levelTest_iff reduce v j _)

/-- The coefficients of a decryption, from those of the ciphertext and the key (rule R168). -/
theorem hasCoefs_decrypt (reduce : Bool) {C SK : Mat} {f g : Coefs} (hC : HasCoefs R C (2 * R.k) (2 * R.k) f)
    (hSK : HasCoefs R SK (2 * R.k) 1 g) :
    HasCoefs R (decrypt R reduce C SK) 1 1 fun _ _ x =>
      decodeLevels R reduce (fun j => product R.q R.n (2 * R.k) f g j 0 x) R.k 0 := by
  have hlevels := hasCoefs_mmul (hasCoefs_topRows (m := R.k) hC (by omega)) hSK
  refine hasCoefs_matOf fun _ _ _ _ x hx => ?_
  rw [decodeColumn, coeff_elemOf _ hx]
  exact decodeLevels_congr reduce (fun j hj => hlevels.coef j hj 0 Nat.one_pos x hx) 0

end Sys2Proof.Machine
end

section
/-! PROOFS. Each command that stores completes and stores its rule's formula, and nothing else changes (40_ring.md,
41_gadget.md, 42_gsw.md): the checks pass, the rule reads its written sources, and the matrix it stores holds the
formula's coefficients. -/

namespace Sys2Proof.Machine

open Sys2Proof.Spec

/-- A command completes when its checks pass and its sources are written. -/
theorem runCommand_completes {opc : Opcode} {used : List (OperandField × Idx)} {ok : Bool} {p : Except Fault State}
    {s : State} {srcs dests : List Idx} {Q : State → Prop} (hready : Ready s srcs dests) (hok : ok = true)
    (hp : Reads s srcs Q p) (hused : used.map Prod.snd = srcs ++ dests) :
    ∃ t, Q t ∧ runCommand opc used ok p s = .next (complete t) := by
  obtain ⟨-, -, hcfg, hvalid, hwritten⟩ := hready
  obtain ⟨t, ht, hQ⟩ := hp.1 hwritten
  exact ⟨t, hQ, runCommand_ok hcfg (fun u hu => hvalid _ (hused ▸ List.mem_map_of_mem hu)) hok ht⟩

/-- Such a command stores the coefficients f when its rule stores a canonical matrix that holds them. -/
theorem runCommand_stores {opc : Opcode} {used : List (OperandField × Idx)} {ok : Bool} {p : Except Fault State}
    {s : State} {srcs : List Idx} {md : Idx} {M : Mat} {r c : Nat} {f : Coefs} (hready : Ready s srcs [md])
    (hok : ok = true) (hp : Reads s srcs (· = store (s.desc md) M s) p) (hd : HasShape s md r c)
    (hcan : CanonicalMat s.ring M) (hM : HasCoefs s.ring M r c f)
    (hused : used.map Prod.snd = srcs ++ [md] := by rfl) :
    ∃ t, runCommand opc used ok p s = .next t ∧ Stores s t md f := by
  obtain ⟨t, rfl, he⟩ := runCommand_completes (opc := opc) hready hok hp hused
  obtain ⟨hlegal, hwf, hcfg, -, -⟩ := hready
  obtain ⟨rfl, rfl⟩ := hd
  refine ⟨_, he, stores_of_store md hwf hcfg fun i hi j hj x hx => ⟨hM.coef i hi j hj x hx, ?_⟩⟩
  rw [← hM.coef i hi j hj x hx]
  exact (hcan i j x).trans_le (ring_q_le hlegal hcfg)

/-! ## Ring and matrix commands -/

/-- Settles O8: both sources have the shape of the destination. -/
theorem maddStoresSums : Obligations.MaddStoresSums := by
  unfold Obligations.MaddStoresSums
  intro md ms1 ms2 s hready hs
  have ⟨hb, hd⟩ := hs
  exact runCommand_stores hready ((check_and descIs_iff descIs_iff).2 hs) (reads_cons (reads_cons (reads_nil rfl))) hd
    (canonicalMat_madd _ _) (hasCoefs_madd (hasCoefs_operand ⟨rfl, rfl⟩) (hasCoefs_operand hb))

/-- Settles O9: both sources have the shape of the destination. -/
theorem msubStoresDifferences : Obligations.MsubStoresDifferences := by
  unfold Obligations.MsubStoresDifferences
  intro md ms1 ms2 s hready hs
  have ⟨hb, hd⟩ := hs
  exact runCommand_stores hready ((check_and descIs_iff descIs_iff).2 hs) (reads_cons (reads_cons (reads_nil rfl))) hd
    (canonicalMat_msub _ _) (hasCoefs_msub (hasCoefs_operand ⟨rfl, rfl⟩) (hasCoefs_operand hb))

/-- Settles O10: coefficient by coefficient, through the reducer. -/
theorem mnegStoresNegations : Obligations.MnegStoresNegations := by
  unfold Obligations.MnegStoresNegations
  intro md ms1 s hready hd
  exact runCommand_stores hready (descIs_iff.2 hd) (reads_cons (reads_nil rfl)) hd (canonicalMat_mneg _)
    (hasCoefs_mneg (hasCoefs_operand ⟨rfl, rfl⟩))

/-- Settles O11: the element products are the rule's double sums (40_ring.md rule R111). -/
theorem mmulStoresProduct : Obligations.MmulStoresProduct := by
  unfold Obligations.MmulStoresProduct
  intro md ms1 ms2 s hready hs
  have ⟨hinner, hd⟩ := hs
  exact runCommand_stores hready ((check_and beq_iff_eq descIs_iff).2 hs) (reads_cons (reads_cons (reads_nil rfl))) hd
    (canonicalMat_mmul _ _) (hasCoefs_mmul (hasCoefs_operand ⟨rfl, rfl⟩) (hasCoefs_operand ⟨hinner.symm, rfl⟩))

/-- An element of a fetched operand holds the residues of its words. -/
theorem coeff_get_operand {s : State} {i : Idx} {r c a b : Nat} (h : HasShape s i r c) (ha : a < r) (hb : b < c) :
    ∀ t < s.ring.n, coeff ((operand s (s.desc i)).get a b) t = residue s i a b t :=
  (hasCoefs_operand h).coef a ha b hb

/-- Settles O12: each element is multiplied by the one element of MS2. -/
theorem mscaleStoresScaledElements : Obligations.MscaleStoresScaledElements := by
  unfold Obligations.MscaleStoresScaledElements
  intro md ms1 ms2 s hready hs
  have ⟨hg, hd⟩ := hs
  exact runCommand_stores hready ((check_and descIs_iff descIs_iff).2 hs) (reads_cons (reads_cons (reads_nil rfl))) hd
    (canonicalMat_mscale _ _)
    (hasCoefs_mscale (coeff_get_operand hg Nat.one_pos Nat.one_pos) (hasCoefs_operand ⟨rfl, rfl⟩))

/-- Settles O13: the fetched element on the diagonal is canonical already. -/
theorem midentStoresDiagonal : Obligations.MidentStoresDiagonal := by
  unfold Obligations.MidentStoresDiagonal
  intro md ms1 s hready hs
  have ⟨hg, hd⟩ := hs
  exact runCommand_stores hready ((check_and descIs_iff descIs_iff).2 hs) (reads_cons (reads_nil rfl)) hd
    (canonicalMat_ident (canonicalMat_operand _ _ _ _)) (hasCoefs_ident (coeff_get_operand hg Nat.one_pos Nat.one_pos))

/-- Settles O14: what a fetch answers is stored as it is. -/
theorem mcopyStoresResidues : Obligations.McopyStoresResidues := by
  unfold Obligations.McopyStoresResidues
  intro md ms1 s hready hd
  exact runCommand_stores hready (descIs_iff.2 hd) (reads_cons (reads_nil rfl)) hd (canonicalMat_operand _ _)
    (hasCoefs_operand ⟨rfl, rfl⟩)

/-- Settles O15: the transpose of what a fetch answers. -/
theorem mtransStoresTranspose : Obligations.MtransStoresTranspose := by
  unfold Obligations.MtransStoresTranspose
  intro md ms1 s hready hd
  exact runCommand_stores hready (descIs_iff.2 hd) (reads_cons (reads_nil rfl)) hd
    (canonicalMat_transpose (canonicalMat_operand _ _)) (hasCoefs_transpose (hasCoefs_operand ⟨rfl, rfl⟩))

/-! ## Gadget commands -/

/-- A valid CFG has k at least 1. -/
theorem one_le_k_of_ready {s : State} {srcs dests : List Idx} (h : Ready s srcs dests) : 1 ≤ s.ring.k :=
  (ring_k_bounds h.2.2.1).1

/-- Settles O16: k columns for each column of the source. -/
theorem pow2StoresPowers : Obligations.Pow2StoresPowers := by
  unfold Obligations.Pow2StoresPowers
  intro md ms1 s hready hd
  exact runCommand_stores hready (descIs_iff.2 hd) (reads_cons (reads_nil rfl)) hd (canonicalMat_pow2 _)
    (hasCoefs_pow2 (hasCoefs_operand ⟨rfl, rfl⟩))

/-- Settles O17: k columns of bits, canonical since q is at least 2. -/
theorem bdecStoresBits : Obligations.BdecStoresBits := by
  unfold Obligations.BdecStoresBits
  intro md ms1 s hready hd
  exact runCommand_stores hready (descIs_iff.2 hd) (reads_cons (reads_nil rfl)) hd
    (canonicalMat_bdec (one_le_k_of_ready hready) _) (hasCoefs_bdec (hasCoefs_operand ⟨rfl, rfl⟩))

/-- Settles O18: the source has k columns for each column of the destination, which the engine checks by the quotient. -/
theorem bdinvStoresWeightedSums : Obligations.BdinvStoresWeightedSums := by
  unfold Obligations.BdinvStoresWeightedSums
  intro md ms1 s hready hs
  obtain ⟨hrows, hcols⟩ := hs
  have hk := one_le_k_of_ready hready
  obtain ⟨hmod, hdiv⟩ := (mod_eq_zero_and_div_eq_iff hk).2 hcols
  exact runCommand_stores hready ((check_and beq_iff_eq descIs_iff).2 ⟨hmod, hrows, hdiv⟩) (reads_cons (reads_nil rfl))
    ⟨rfl, rfl⟩ (canonicalMat_bdinv _) (hasCoefs_bdinv hk (hasCoefs_operand ⟨hrows.symm, hcols.symm⟩))

/-- Settles O19: the columns of the source are whole groups of k, as are those of the destination. -/
theorem flatStoresNormalisedGroups : Obligations.FlatStoresNormalisedGroups := by
  unfold Obligations.FlatStoresNormalisedGroups
  intro md ms1 s hready hs
  have ⟨hdvd, hrows, hcols⟩ := hs
  have hgroups : colsOf s ms1 = colsOf s ms1 / s.ring.k * s.ring.k := (Nat.div_mul_cancel hdvd).symm
  have hk := one_le_k_of_ready hready
  exact runCommand_stores hready ((check_and (beq_iff_eq.trans Nat.dvd_iff_mod_eq_zero.symm) descIs_iff).2 hs)
    (reads_cons (reads_nil rfl)) ⟨hrows, hcols.trans hgroups⟩ (canonicalMat_flat hk _)
    (hasCoefs_flat hk (hasCoefs_operand ⟨rfl, hgroups⟩))

/-! ## Ciphertext commands -/

/-- Settles O20: the transposed powers of the row (1, -t). -/
theorem skgenStoresSecretKey : Obligations.SkgenStoresSecretKey := by
  unfold Obligations.SkgenStoresSecretKey
  intro md ms1 s hready hs
  have ⟨ht, hd⟩ := hs
  exact runCommand_stores hready ((check_and descIs_iff descIs_iff).2 hs) (reads_cons (reads_nil rfl)) hd
    (canonicalMat_secretKey _) (hasCoefs_secretKey (coeff_get_operand ht Nat.one_pos Nat.one_pos))

/-- Settles O21: from the three elements of the source row. -/
theorem pkgenStoresPublicKey : Obligations.PkgenStoresPublicKey := by
  unfold Obligations.PkgenStoresPublicKey
  intro md ms1 s hready hs
  have ⟨hrow, hd⟩ := hs
  exact runCommand_stores hready ((check_and descIs_iff descIs_iff).2 hs) (reads_cons (reads_nil rfl)) hd
    (canonicalMat_publicKey _ _ (canonicalMat_operand _ _ _ _))
    (hasCoefs_publicKey (coeff_get_operand hrow Nat.one_pos (by decide))
      (coeff_get_operand hrow Nat.one_pos (by decide)) (coeff_get_operand hrow Nat.one_pos (by decide)))

/-- Settles O22: R·PK is N×2, so its bits and the diagonal are both N×N. -/
theorem encStoresCiphertext : Obligations.EncStoresCiphertext := by
  unfold Obligations.EncStoresCiphertext
  intro md ms1 ms2 ms3 s hready hs
  obtain ⟨hpt, hrows, hkey, hd⟩ := hs
  have hk := one_le_k_of_ready hready
  have hproduct := hasCoefs_mmul (hasCoefs_operand ⟨hrows, rfl⟩) (hasCoefs_operand hkey)
  have hsum := hasCoefs_madd (hasCoefs_ident (coeff_get_operand hpt Nat.one_pos Nat.one_pos)) (hasCoefs_bdec hproduct)
  exact runCommand_stores hready
    ((check_and (check_and (check_and (check_and descIs_iff beq_iff_eq) beq_iff_eq) beq_iff_eq) descIs_iff).2
      ⟨⟨⟨⟨hpt, hrows⟩, hkey.1⟩, hkey.2⟩, hd⟩)
    (reads_cons (reads_cons (reads_cons (reads_nil rfl)))) hd (canonicalMat_flat hk _) (hasCoefs_flat hk hsum)

/-- Settles O23: the coefficients are those the decoder answers, level by level. -/
theorem decStoresDecodedElement : Obligations.DecStoresDecodedElement := by
  unfold Obligations.DecStoresDecodedElement
  intro md ms1 ms2 s hready hs
  obtain ⟨hC, hkey, hd⟩ := hs
  have hM := hasCoefs_decrypt s.params.decReduce (hasCoefs_operand hC) (hasCoefs_operand hkey)
  have hdec : ∃ t, exec (.dec md ms1 ms2) s = .next t ∧ Stores s t md _ :=
    runCommand_stores hready ((check_and (check_and descIs_iff descIs_iff) descIs_iff).2 ⟨⟨hC, hkey⟩, hd⟩)
      (reads_cons (reads_cons (reads_nil rfl))) hd (canonicalMat_decrypt _ _ _) hM
  obtain ⟨t, he, hstores⟩ := hdec
  exact ⟨t, _, he, hstores, fun x _ => decodes_decodeLevels _ _⟩

/-- Settles O24: the flattened constant is N×N, so its product with C is. -/
theorem hmcStoresScaledCiphertext : Obligations.HmcStoresScaledCiphertext := by
  unfold Obligations.HmcStoresScaledCiphertext
  intro md ms1 ms2 s hready hs
  obtain ⟨hC, hg, hd⟩ := hs
  have hk := one_le_k_of_ready hready
  have hleft := hasCoefs_flat hk (hasCoefs_ident (coeff_get_operand hg Nat.one_pos Nat.one_pos))
  exact runCommand_stores hready ((check_and (check_and descIs_iff descIs_iff) descIs_iff).2 ⟨⟨hC, hg⟩, hd⟩)
    (reads_cons (reads_cons (reads_nil rfl))) hd (canonicalMat_flat hk _)
    (hasCoefs_flat hk (hasCoefs_mmul hleft (hasCoefs_operand hC)))

/-- Settles O25: the flattened sum of two N×N matrices. -/
theorem haddStoresSummedCiphertext : Obligations.HaddStoresSummedCiphertext := by
  unfold Obligations.HaddStoresSummedCiphertext
  intro md ms1 ms2 s hready hs
  obtain ⟨hC1, hC2, hd⟩ := hs
  have hk := one_le_k_of_ready hready
  exact runCommand_stores hready ((check_and (check_and descIs_iff descIs_iff) descIs_iff).2 ⟨⟨hC1, hC2⟩, hd⟩)
    (reads_cons (reads_cons (reads_nil rfl))) hd (canonicalMat_flat hk _)
    (hasCoefs_flat hk (hasCoefs_madd (hasCoefs_operand hC1) (hasCoefs_operand hC2)))

/-- The term the fake-key check tests, from the coefficients of the two keys (rule R171). -/
theorem checkTerm_eq {R : RingCtx} {PK FSK : Mat} {f g : Coefs} (hn : 0 < R.n) (hPK : HasCoefs R PK 1 2 f)
    (hFSK : HasCoefs R FSK (2 * R.k) 1 g) :
    checkTerm R PK FSK = product R.q R.n (2 * R.k) (bits R.k f) g 0 0 0 :=
  (hasCoefs_mmul (hasCoefs_bdec hPK) hFSK).coef 0 Nat.one_pos 0 Nat.one_pos 0 hn

/-- Settles O26: its rule sets CHK instead of storing. -/
theorem chkskSetsBandFlag : Obligations.ChkskSetsBandFlag := by
  unfold Obligations.ChkskSetsBandFlag
  intro ms1 ms2 s hready hs
  have ⟨hPK, hFSK⟩ := hs
  have hterm := checkTerm_eq (Nat.two_pow_pos _) (hasCoefs_operand hPK) (hasCoefs_operand hFSK)
  have hchk : ∃ t,
      t = { s with chk := band s.ring (checkTerm s.ring (operand s (s.desc ms1)) (operand s (s.desc ms2))) } ∧
        exec (.chksk ms1 ms2) s = .next (complete t) :=
    runCommand_completes hready ((check_and descIs_iff descIs_iff).2 hs) (reads_cons (reads_cons (reads_nil rfl))) rfl
  obtain ⟨t, rfl, he⟩ := hchk
  refine ⟨_, he, ?_⟩
  rw [← hterm]
  exact band_iff _ _

end Sys2Proof.Machine
end

section
/-! PROOFS. The encoding of commands (30_encoding.md rules R91 to R98): decoding undoes encoding, and the decoder accepts
the well-formed words only and names the fault of every other. -/

namespace Sys2Proof

/-! ## The round trip -/

/-- A one-source arm accepts the encoding of its command. -/
theorem decodeUnary_encode {i : Instr} {f : Idx → Idx → Instr} {o : Opcode} {d a : Idx}
    (hfields : i.fields = ⟨o, d, a, 0, 0, 0⟩) (hi : f d a = i) : decodeUnary (encode i) f = .ok i := by
  rw [decodeUnary, mdOf_encode, ms1Of_encode, ms2Of_encode, ms3Of_encode, rsvOf_encode, hfields, hi]
  rfl

/-- A two-source arm accepts the encoding of its command. -/
theorem decodeBinary_encode {i : Instr} {f : Idx → Idx → Idx → Instr} {o : Opcode} {d a b : Idx}
    (hfields : i.fields = ⟨o, d, a, b, 0, 0⟩) (hi : f d a b = i) : decodeBinary (encode i) f = .ok i := by
  rw [decodeBinary, mdOf_encode, ms1Of_encode, ms2Of_encode, ms3Of_encode, rsvOf_encode, hfields, hi]
  rfl

/-- Decoding undoes encoding: the opcode selects the command's own arm, whose guard holds as the fields the command does
not use are 0. -/
theorem decode_encode (i : Instr) : decode (encode i) = .ok i := by
  rw [decode, opcOf_encode_eq_opcode]
  cases i with
  | nop => rfl
  | madd d a b | msub d a b | mmul d a b | mscale d a b | dec d a b | hmc d a b | hadd d a b =>
    exact decodeBinary_encode rfl rfl
  | mneg d a | mident d a | mcopy d a | mtrans d a | pow2 d a | bdec d a | bdinv d a | flat d a | skgen d a
  | pkgen d a =>
    exact decodeUnary_encode rfl rfl
  | enc d a b c =>
    simp only [mdOf_encode, ms1Of_encode, ms2Of_encode, ms3Of_encode, rsvOf_encode]
    rfl
  | chksk a b =>
    simp only [mdOf_encode, ms1Of_encode, ms2Of_encode, ms3Of_encode, rsvOf_encode]
    rfl

/-- A decoded word is the encoding of its command: its arm's guard held, so no field of the word was dropped. -/
theorem encode_of_decode {w : Word} {i : Instr} (h : decode w = .ok i) : encode i = w := by
  rcases decode_cases w with ⟨-, j, hd, hj⟩ | ⟨-, hd⟩
  · obtain ⟨rfl, hz⟩ := decodeIf_ok (hd.symm.trans h)
    exact hj hz
  · rw [hd] at h; cases h

/-! ## The three answers, characterised -/

theorem wellFormed_iff (w : Word) :
    (rawOf w).wellFormed = true ↔ (rawOf w).opcodeDefined = true ∧ zerosHold w = true := by
  rw [RawCommand.wellFormed, Bool.and_assoc, Bool.and_eq_true, zerosHold]

theorem decode_ok_iff (w : Word) : (∃ i, decode w = .ok i) ↔ (rawOf w).wellFormed = true := by
  rw [wellFormed_iff]
  constructor
  · rintro ⟨i, hi⟩
    rcases decode_cases w with ⟨hdef, j, hd, -⟩ | ⟨-, hd⟩
    · exact ⟨hdef, (decodeIf_ok (hd.symm.trans hi)).2⟩
    · rw [hd] at hi; cases hi
  · rintro ⟨hdef, hz⟩
    obtain ⟨i, hi, -⟩ := decode_of_wellFormed hdef hz
    exact ⟨i, hi⟩

theorem decodeIf_eq_reservedField {z : Bool} {i : Instr} : decodeIf z i = .error .reservedField ↔ z = false := by
  cases z <;> simp [decodeIf]

theorem decodeIf_ne_illegalOpcode (z : Bool) (i : Instr) : decodeIf z i ≠ .error .illegalOpcode := by
  cases z <;> simp [decodeIf]

theorem decode_illegalOpcode_iff (w : Word) :
    decode w = .error .illegalOpcode ↔ (rawOf w).opcodeDefined = false := by
  refine ⟨fun h => ?_, decode_of_undefined⟩
  rcases decode_cases w with ⟨-, i, hd, -⟩ | ⟨hundef, -⟩
  · exact absurd (hd.symm.trans h) (decodeIf_ne_illegalOpcode _ i)
  · exact hundef

theorem decode_reservedField_iff (w : Word) :
    decode w = .error .reservedField ↔ (rawOf w).opcodeDefined = true ∧ zerosHold w = false := by
  refine ⟨fun h => ?_, fun ⟨hdef, hz⟩ => decode_of_nonzero hdef hz⟩
  rcases decode_cases w with ⟨hdef, i, hd, -⟩ | ⟨-, hd⟩
  · exact ⟨hdef, decodeIf_eq_reservedField.1 (hd.symm.trans h)⟩
  · rw [hd] at h; cases h

/-! ## The claims -/

/-- Settles O1, by the command's own arm of the decoder. -/
theorem decodeOfEncodeIsIdentity : Obligations.DecodeOfEncodeIsIdentity := decode_encode

/-- Settles O2, by the guard of the arm that accepted the word. -/
theorem decodedWordIsTheEncoding : Obligations.DecodedWordIsTheEncoding := fun _ _ => encode_of_decode

/-- Settles O3, one equivalence for each answer of the decoder. -/
theorem decodeAcceptsExactlyWellFormedWords : Obligations.DecodeAcceptsExactlyWellFormedWords := fun w =>
  ⟨decode_ok_iff w, decode_illegalOpcode_iff w, decode_reservedField_iff w⟩

/-- Settles O4: each word is the encoding of its command. -/
theorem sampleWordsDecode : Obligations.SampleWordsDecode :=
  ⟨decode_encode .nop, decode_encode (.mmul 3 1 2), decode_encode (.enc 4 0 1 2), decode_encode (.chksk 1 2),
    decode_encode (.mcopy 9 10), decode_encode (.flat 15 15), decode_encode (.hadd 11 9 10)⟩

end Sys2Proof
end

section
/-! PROOFS. The multiplier's result as a polynomial (40_ring.md rule R111): the product of two elements is a sum of
monomials, and modulo x^n + 1, in which x^n = -1, each of them is the polynomial it adds to the rule's double sum. -/

namespace Sys2Proof.Machine

open Sys2Proof.Spec Polynomial

/-- What the monomial c·x^s adds to coefficient t of the rule's double sum. -/
def wrappedTerm (n s t : Nat) (c : Int) : Int := if s = t then c else if s = t + n then -c else 0

theorem negacyclic_eq_sum_wrappedTerm (n : Nat) (a b : Nat → Nat) (t : Nat) :
    negacyclic n a b t =
      ∑ i ∈ Finset.range n, ∑ j ∈ Finset.range n, wrappedTerm n (i + j) t ((a i : Int) * b j) := rfl

/-- The polynomial of degree below n that the monomial c·x^s adds to the result. -/
noncomputable def wrappedMonomial (R : RingCtx) (s : Nat) (c : Int) : (ZMod R.q)[X] :=
  ∑ t ∈ Finset.range R.n, C (wrappedTerm R.n s t c : ZMod R.q) * X ^ t

variable (R : RingCtx) (a b : Elem)

/-- Below x^n a monomial stays as it is. -/
theorem wrappedMonomial_of_lt {s : Nat} (hs : s < R.n) (c : Int) :
    wrappedMonomial R s c = C (c : ZMod R.q) * X ^ s := by
  rw [wrappedMonomial, Finset.sum_eq_single_of_mem s (Finset.mem_range.2 hs)]
  · rw [wrappedTerm, if_pos rfl]
  · intro t _ hne
    rw [wrappedTerm, if_neg hne.symm, if_neg (by omega), Int.cast_zero, C_0, zero_mul]

/-- From x^n on a monomial comes back n degrees lower with its sign changed. -/
theorem wrappedMonomial_add_n {u : Nat} (hu : u < R.n) (c : Int) :
    wrappedMonomial R (u + R.n) c = -(C (c : ZMod R.q) * X ^ u) := by
  rw [wrappedMonomial, Finset.sum_eq_single_of_mem u (Finset.mem_range.2 hu)]
  · rw [wrappedTerm, if_neg (by omega), if_pos rfl, Int.cast_neg, C_neg, neg_mul]
  · intro t ht hne
    rw [Finset.mem_range] at ht
    rw [wrappedTerm, if_neg (by omega), if_neg (by omega), Int.cast_zero, C_0, zero_mul]

/-- Modulo x^n + 1 a monomial of a product is what it adds to the result. -/
theorem dvd_monomial_sub_wrappedMonomial {s : Nat} (hs : s < R.n + R.n) (c : Int) :
    (X ^ R.n + 1 : (ZMod R.q)[X]) ∣ C (c : ZMod R.q) * X ^ s - wrappedMonomial R s c := by
  rcases lt_or_ge s R.n with hlt | hge
  · rw [wrappedMonomial_of_lt R hlt, sub_self]
    exact dvd_zero _
  · obtain ⟨u, rfl⟩ := Nat.exists_eq_add_of_le' hge
    rw [wrappedMonomial_add_n R (by omega)]
    exact ⟨C (c : ZMod R.q) * X ^ u, by ring⟩

/-- The modular reducer keeps the residue class (rule R110). -/
theorem modq_cast_zmod (v : Int) : ((modq R v : Nat) : ZMod R.q) = v := by
  rw [← Int.cast_natCast, modq_cast, ZMod.intCast_mod]

/-- The product of two elements, monomial by monomial. -/
theorem poly_mul_poly :
    poly R a * poly R b = ∑ i ∈ Finset.range R.n, ∑ j ∈ Finset.range R.n,
      C (((coeff a i : Int) * coeff b j : Int) : ZMod R.q) * X ^ (i + j) := by
  rw [poly, poly, Finset.sum_mul_sum]
  refine Finset.sum_congr rfl fun i _ => Finset.sum_congr rfl fun j _ => ?_
  rw [Int.cast_mul, Int.cast_natCast, Int.cast_natCast, C_mul, pow_add]
  ring

/-- A coefficient of the multiplier's result, in the residues modulo q. -/
theorem coeff_polyMul_zmod {t : Nat} (ht : t < R.n) :
    ((coeff (polyMul R a b) t : Nat) : ZMod R.q) = ∑ i ∈ Finset.range R.n, ∑ j ∈ Finset.range R.n,
      (wrappedTerm R.n (i + j) t ((coeff a i : Int) * coeff b j) : ZMod R.q) := by
  rw [coeff_polyMul_eq_negacyclic R a b ht, negacyclic_eq_sum_wrappedTerm]
  refine (modq_cast_zmod R _).trans ?_
  simp only [Int.cast_sum]

/-- The multiplier's result is the sum of what the monomials of the product add to it. -/
theorem poly_polyMul :
    poly R (polyMul R a b) = ∑ i ∈ Finset.range R.n, ∑ j ∈ Finset.range R.n,
      wrappedMonomial R (i + j) ((coeff a i : Int) * coeff b j) := by
  calc poly R (polyMul R a b)
      = ∑ t ∈ Finset.range R.n, ∑ i ∈ Finset.range R.n, ∑ j ∈ Finset.range R.n,
          C (wrappedTerm R.n (i + j) t ((coeff a i : Int) * coeff b j) : ZMod R.q) * X ^ t := by
        refine Finset.sum_congr rfl fun t ht => ?_
        rw [coeff_polyMul_zmod R a b (Finset.mem_range.1 ht)]
        simp only [map_sum, Finset.sum_mul]
    _ = ∑ i ∈ Finset.range R.n, ∑ j ∈ Finset.range R.n,
          wrappedMonomial R (i + j) ((coeff a i : Int) * coeff b j) := by
        rw [Finset.sum_comm]
        exact Finset.sum_congr rfl fun i _ => Finset.sum_comm

/-- The product of the polynomials and the polynomial of the result agree modulo x^n + 1. -/
theorem dvd_poly_mul_sub_poly_polyMul :
    (X ^ R.n + 1 : (ZMod R.q)[X]) ∣ poly R a * poly R b - poly R (polyMul R a b) := by
  rw [poly_mul_poly, poly_polyMul]
  simp only [← Finset.sum_sub_distrib]
  refine Finset.dvd_sum fun i hi => Finset.dvd_sum fun j hj => dvd_monomial_sub_wrappedMonomial R ?_ _
  exact Nat.add_lt_add (Finset.mem_range.1 hi) (Finset.mem_range.1 hj)

/-- Settles O56, monomial by monomial: from x^n on each comes back with its sign changed. -/
theorem multiplierIsTheRingProduct : Obligations.MultiplierIsTheRingProduct := fun R a b =>
  ⟨dvd_poly_mul_sub_poly_polyMul R a b, fun _ ht => coeff_polyMul_eq_negacyclic R a b ht⟩

end Sys2Proof.Machine
end

section
/-! PROOFS. Five commands store bits (41_gadget.md rules R141, R143; 42_gsw.md rule R160): each ends by storing the
bitDecomp of what it computed, and bitDecomp's coefficients are 0 or 1 whatever it is given. -/

namespace Sys2Proof.Machine

open Sys2Proof.Spec

/-- The bitDecomp of any matrix, of any shape, is canonical for q = 2. -/
theorem coef_bdec_lt_two (R : RingCtx) (M : Mat) (i j t : Nat) : (bdec R M).coef i j t < 2 :=
  canonicalMat_matOfCoefs (R := ⟨1, R.n⟩) (fun _ _ _ => bitOf_lt_two _ _) i j t

/-- What the rule of a flattening command does: it stores the bitDecomp of some matrix through MD. -/
def StoresBdec (md : Idx) (s t : State) : Prop := ∃ M, t = store (s.desc md) (bdec s.ring M) s

/-- Each of the five commands is its checks followed by a rule that stores a bitDecomp; FLAT, ENC, HMC and HADD end with
flat, which is a bitDecomp too. -/
theorem exec_eq_storesBdec {md ms1 ms2 ms3 : Idx} {i : Instr}
    (hi : i ∈ [.enc md ms1 ms2 ms3, .hmc md ms1 ms2, .hadd md ms1 ms2, .flat md ms1, .bdec md ms1]) (s : State) :
    ∃ opc used ok js p, exec i s = runCommand opc used ok p s ∧ Reads s js (StoresBdec md s) p := by
  simp only [List.mem_cons, List.not_mem_nil, or_false] at hi
  obtain rfl | rfl | rfl | rfl | rfl := hi
  · exact ⟨_, _, _, _, _, rfl, reads_cons (reads_cons (reads_cons (reads_nil ⟨_, rfl⟩)))⟩
  · exact ⟨_, _, _, _, _, rfl, reads_cons (reads_cons (reads_nil ⟨_, rfl⟩))⟩
  · exact ⟨_, _, _, _, _, rfl, reads_cons (reads_cons (reads_nil ⟨_, rfl⟩))⟩
  · exact ⟨_, _, _, _, _, rfl, reads_cons (reads_nil ⟨_, rfl⟩)⟩
  · exact ⟨_, _, _, _, _, rfl, reads_cons (reads_nil ⟨_, rfl⟩)⟩

/-- A command that answers without error has passed its checks and done what its rule does. -/
theorem runCommand_without_error {opc : Opcode} {used : List (OperandField × Idx)} {ok : Bool} {p : Except Fault State}
    {s t : State} {js : List Idx} {Q : State → Prop} (hp : Reads s js Q p) (h : runCommand opc used ok p s = .next t)
    (herr : t.err = false) : s.cfgOk = true ∧ ∃ u, Q u ∧ t = complete u := by
  rcases runCommand_cases opc used ok p s with
    ⟨-, he⟩ | ⟨-, _, -, he⟩ | ⟨-, -, -, he⟩ | ⟨hc, -, -, ⟨u, hu, he⟩ | ⟨_, -, he⟩⟩ <;> rw [he] at h <;> cases h
  case inl | inr.inl | inr.inr.inl => exact absurd herr (by simp)
  obtain ⟨hok, hfault⟩ := hp
  by_cases hw : ∀ j ∈ js, Written s j
  · obtain ⟨_, hv, hQ⟩ := hok hw
    cases hu.symm.trans hv
    exact ⟨hc, u, hQ, rfl⟩
  · cases hu.symm.trans (hfault hw)

/-- Settles O33: the word of each coefficient of the stored bitDecomp is 0 or 1. -/
theorem flattenedResultsAreBits : Obligations.FlattenedResultsAreBits := by
  unfold Obligations.FlattenedResultsAreBits
  intro md ms1 ms2 ms3 i hi s t hw _ h herr r hr c hc x hx
  obtain ⟨opc, used, ok, js, p, he, hp⟩ := exec_eq_storesBdec hi s
  obtain ⟨hcfg, _, ⟨M, rfl⟩, rfl⟩ := runCommand_without_error hp (he.symm.trans h) herr
  have hread : (store (s.desc md) (bdec s.ring M) s).pm.read (addrOf s md r c x) = _ := store_pmWord hw hcfg _ hr hc hx
  rw [complete_pm, hread]
  have hbit := coef_bdec_lt_two s.ring M r c x
  interval_cases (bdec s.ring M).coef r c x
  · exact .inl rfl
  · exact .inr rfl

end Sys2Proof.Machine
end

section
/-! PROOFS. The identities of the gadget functions (41_gadget.md rule R148): the weighted sum of the bits of a number is the
number modulo q, and modulo q the weights of a sum of products may stand on either factor. -/

namespace Sys2Proof.Machine

open Sys2Proof.Spec

variable {R : RingCtx} {M P : Mat} {r c m : Nat} {f g : Coefs}

/-! ## Bits and their weighted sums (rules R141 to R143) -/

/-- Binary expansion: the k low bits of a number, with their weights. -/
theorem sum_weighted_bits (v k : Nat) : ∑ l ∈ Finset.range k, 2 ^ l * (v / 2 ^ l % 2) = v % 2 ^ k := by
  induction k with
  | zero => simp [Nat.mod_one]
  | succ k ih => rw [Finset.sum_range_succ, ih, Nat.mod_pow_succ]

/-- The low bits of a number are those of its residue. -/
theorem bit_mod_two_pow (v : Nat) {k l : Nat} (hl : l < k) : v % 2 ^ k / 2 ^ l % 2 = v / 2 ^ l % 2 := by
  obtain ⟨d, rfl⟩ := Nat.exists_eq_add_of_lt hl
  rw [Nat.add_assoc, pow_add, Nat.mod_mul_right_div_self, Nat.mod_mod_of_dvd _ (dvd_pow_self 2 d.succ_ne_zero)]

/-- The place of a gadget column in its group, and the group. -/
theorem group_column_mod_div {k l : Nat} (j : Nat) (hl : l < k) : (j * k + l) % k = l ∧ (j * k + l) / k = j := by
  rw [Nat.mul_comm, Nat.mul_add_mod, Nat.mul_add_div (by omega), Nat.div_eq_of_lt hl]
  exact ⟨Nat.mod_eq_of_lt hl, rfl⟩

theorem bits_group_column (k : Nat) (A : Coefs) (i j t : Nat) {l : Nat} (hl : l < k) :
    bits k A i (j * k + l) t = A i j t / 2 ^ l % 2 := by
  obtain ⟨hmod, hdiv⟩ := group_column_mod_div j hl
  rw [bits, hmod, hdiv]

theorem powers_group_column (q k : Nat) (A : Coefs) (i j t : Nat) {l : Nat} (hl : l < k) :
    powers q k A i (j * k + l) t = 2 ^ l * A i j t % q := by
  obtain ⟨hmod, hdiv⟩ := group_column_mod_div j hl
  rw [powers, hmod, hdiv]

/-- bitDecompInv after bitDecomp reduces modulo q. -/
theorem unbits_bits (R : RingCtx) (A : Coefs) : unbits R.q R.k (bits R.k A) = fun i j t => A i j t % R.q := by
  funext i j t
  have hbits : ∀ l ∈ Finset.range R.k, 2 ^ l * bits R.k A i (j * R.k + l) t = 2 ^ l * (A i j t / 2 ^ l % 2) :=
    fun l hl => by rw [bits_group_column R.k A i j t (Finset.mem_range.1 hl)]
  rw [unbits, Finset.sum_congr rfl hbits, sum_weighted_bits, RingCtx.q, Nat.mod_mod]

/-- flatten leaves bits as they are. -/
theorem flatten_bits (hk : 1 ≤ R.k) (A : Coefs) : flatten R.q R.k (bits R.k A) = bits R.k A := by
  funext i c t
  rw [flatten, unbits_bits]
  exact bit_mod_two_pow _ (Nat.mod_lt c hk)

theorem hasCoefs_self (R : RingCtx) (M : Mat) : HasCoefs R M M.rows M.cols M.coef :=
  ⟨rfl, rfl, fun _ _ _ _ _ _ => rfl⟩

/-- Rule R148 (a), for coefficients of any size. -/
theorem hasCoefs_bdinv_bdec (hk : 1 ≤ R.k) (hM : HasCoefs R M r c f) :
    HasCoefs R (bdinv R (bdec R M)) r c fun i j t => f i j t % R.q :=
  unbits_bits R f ▸ hasCoefs_bdinv hk (hasCoefs_bdec hM)

/-- Rule R148 (d), for bitDecomp's results. -/
theorem hasCoefs_flat_bdec (hk : 1 ≤ R.k) (M : Mat) :
    HasCoefs R (flat R (bdec R M)) M.rows (M.cols * R.k) (bdec R M).coef := by
  have hM := hasCoefs_bdec (hasCoefs_self R M)
  have hflat := hasCoefs_flat hk hM
  rw [flatten_bits hk] at hflat
  exact hflat.congr fun i hi j hj t ht => (hM.coef i hi j hj t ht).symm

/-- Settles O57: flat's own results are bitDecomp's, so its second fixed points are among the first. -/
theorem gadgetInverseAndFixedPoints : Obligations.GadgetInverseAndFixedPoints := by
  unfold Obligations.GadgetInverseAndFixedPoints
  intro R M hk
  refine ⟨fun i hi j hj t ht hlt => ?_, (hasCoefs_flat_bdec hk M).coef, fun hdvd i hi c hc => ?_⟩
  · rw [(hasCoefs_bdinv_bdec hk (hasCoefs_self R M)).coef i hi j hj t ht, Nat.mod_eq_of_lt hlt]
  · have hcols : (bdinv R M).cols * R.k = M.cols := Nat.div_mul_cancel hdvd
    exact (hasCoefs_flat_bdec hk (bdinv R M)).coef i hi c (hcols.symm ▸ hc)

/-! ## Products with powers of two (rules R140, R142) -/

theorem wrappedTerm_eq_mul (n s t : Nat) (c : Int) : wrappedTerm n s t c = wrappedTerm n s t 1 * c := by
  unfold wrappedTerm
  split_ifs <;> simp

/-- The rule's double sum (40_ring.md rule R111) in the residues modulo q: linear in each factor. -/
def negacyclicMod (R : RingCtx) (a b : Nat → ZMod R.q) (t : Nat) : ZMod R.q :=
  ∑ i ∈ Finset.range R.n, ∑ j ∈ Finset.range R.n, (wrappedTerm R.n (i + j) t 1 : ZMod R.q) * (a i * b j)

theorem cast_negacyclic (R : RingCtx) (a b : Nat → Nat) (t : Nat) :
    (negacyclic R.n a b t : ZMod R.q) = negacyclicMod R (fun i => a i) (fun j => b j) t := by
  rw [negacyclic_eq_sum_wrappedTerm, negacyclicMod]
  simp only [wrappedTerm_eq_mul R.n _ t ((_ : Int) * _)]
  push_cast
  rfl

/-- The weights of a sum of products may move from the second factor to the first. -/
theorem sum_negacyclicMod_weighted (k : Nat) (w : Nat → ZMod R.q) (x : Nat → Nat → ZMod R.q) (y : Nat → ZMod R.q)
    (t : Nat) :
    ∑ l ∈ Finset.range k, negacyclicMod R (x l) (fun j => w l * y j) t =
      negacyclicMod R (fun i => ∑ l ∈ Finset.range k, w l * x l i) y t := by
  simp only [negacyclicMod, Finset.sum_mul, Finset.mul_sum]
  rw [Finset.sum_comm]
  refine Finset.sum_congr rfl fun i _ => ?_
  rw [Finset.sum_comm]
  refine Finset.sum_congr rfl fun j _ => Finset.sum_congr rfl fun l _ => ?_
  ring

/-- Equal modulo q, equal residues. -/
theorem residueOf_congr_zmod {v w : Int} (h : (v : ZMod R.q) = w) : residueOf R.q v = residueOf R.q w :=
  modq_congr R ((ZMod.intCast_eq_intCast_iff' v w R.q).1 h)

/-- A product looks at its factors modulo q only. -/
theorem residueOf_negacyclic_mod (R : RingCtx) (a b : Nat → Nat) (t : Nat) :
    residueOf R.q (negacyclic R.n (fun i => a i % R.q) b t) = residueOf R.q (negacyclic R.n a b t) :=
  residueOf_congr_zmod (by simp only [cast_negacyclic, ZMod.natCast_mod])

/-- One column group times the powers of an element is the group's bitDecompInv times the element. -/
theorem sum_group_negacyclic (f g : Coefs) (i c j t : Nat) :
    (∑ l ∈ Finset.range R.k, (negacyclic R.n (f i (j * R.k + l)) (powers R.q R.k g c (j * R.k + l)) t : ZMod R.q)) =
      negacyclic R.n (unbits R.q R.k f i j) (g c j) t := by
  simp only [cast_negacyclic]
  calc ∑ l ∈ Finset.range R.k, negacyclicMod R (fun x => f i (j * R.k + l) x)
          (fun x => powers R.q R.k g c (j * R.k + l) x) t
      = ∑ l ∈ Finset.range R.k, negacyclicMod R (fun x => f i (j * R.k + l) x) (fun x => 2 ^ l * g c j x) t := by
        refine Finset.sum_congr rfl fun l hl => congrArg (negacyclicMod R _ · t) (funext fun x => ?_)
        rw [powers_group_column R.q R.k g c j x (Finset.mem_range.1 hl)]
        simp
    _ = negacyclicMod R (fun x => unbits R.q R.k f i j x) (fun x => g c j x) t := by
        rw [sum_negacyclicMod_weighted]
        simp [unbits]

/-- A sum over the columns of m groups of k, group by group. -/
theorem sum_range_groups {α : Type} [AddCommMonoid α] (m k : Nat) (F : Nat → α) :
    ∑ c ∈ Finset.range (m * k), F c = ∑ j ∈ Finset.range m, ∑ l ∈ Finset.range k, F (j * k + l) := by
  induction m with
  | zero => simp
  | succ m ih => rw [Nat.succ_mul, Finset.sum_range_add, ih, Finset.sum_range_succ]

/-- A product with a column of stacked powers of two is the product of the bitDecompInv with the column. -/
theorem product_powers (m : Nat) (f g : Coefs) :
    product R.q R.n (m * R.k) f (fun i j t => powers R.q R.k g j i t) =
      product R.q R.n m (unbits R.q R.k f) fun i j t => g j i t := by
  funext i c t
  refine residueOf_congr_zmod ?_
  push_cast
  rw [sum_range_groups]
  exact Finset.sum_congr rfl fun j _ => sum_group_negacyclic f g i c j t

/-- The same for the engine's matrices, with a row of elements for the column. -/
theorem hasCoefs_mmul_pow2 (hM : HasCoefs R M r (m * R.k) f) (hP : HasCoefs R P c m g) :
    HasCoefs R (mmul R M (transpose (pow2 R P))) r c (product R.q R.n m (unbits R.q R.k f) fun i j t => g j i t) :=
  product_powers m f g ▸ hasCoefs_mmul hM (hasCoefs_transpose (hasCoefs_pow2 hP))

theorem hasCoefs_element (R : RingCtx) (e : Elem) : HasCoefs R (matOf 1 1 fun _ _ => e) 1 1 fun _ _ t => coeff e t :=
  hasCoefs_matOf fun _ _ _ _ _ _ => rfl

/-- A product of one inner element is a product of elements. -/
theorem product_one (q n : Nat) (f g : Coefs) (i j t : Nat) :
    product q n 1 f g i j t = residueOf q (negacyclic n (f i 0) (g 0 j) t) := by
  rw [product, Finset.sum_range_one]

/-- Rule R148 (c): a row of k elements times the powers of an element. -/
theorem coef_mmul_pow2_element (hM : HasCoefs R M 1 R.k f) (b : Elem) {t : Nat} (ht : t < R.n) :
    (mmul R M (transpose (pow2 R (matOf 1 1 fun _ _ => b)))).coef 0 0 t =
      residueOf R.q (negacyclic R.n (unbits R.q R.k f 0 0) (coeff b) t) := by
  rw [← Nat.one_mul R.k] at hM
  rw [(hasCoefs_mmul_pow2 hM (hasCoefs_element R b)).coef 0 Nat.one_pos 0 Nat.one_pos t ht, product_one]

/-- Rule R148 (b): the bits of one element times the powers of another. -/
theorem coef_mmul_bdec_pow2 (R : RingCtx) (a b : Elem) {t : Nat} (ht : t < R.n) :
    (mmul R (bdec R (matOf 1 1 fun _ _ => a)) (transpose (pow2 R (matOf 1 1 fun _ _ => b)))).coef 0 0 t =
      coeff (polyMul R a b) t := by
  have hbits := hasCoefs_bdec (hasCoefs_element R a)
  rw [Nat.one_mul] at hbits
  rw [coef_mmul_pow2_element hbits b ht, unbits_bits, residueOf_negacyclic_mod, coeff_polyMul_eq_negacyclic R a b ht]

/-- bitDecompInv does not tell a matrix from its flatten, so neither does a product with powers of two (rule R148 (e)). -/
theorem unbits_flatten (R : RingCtx) (A : Coefs) : unbits R.q R.k (flatten R.q R.k A) = unbits R.q R.k A := by
  rw [flatten, unbits_bits]
  funext i j t
  exact Nat.mod_mod _ _

/-- Settles O58: every product with powers of two is one with the bitDecompInv of its first factor. -/
theorem flattenPreservesProductsWithPowers : Obligations.FlattenPreservesProductsWithPowers := by
  unfold Obligations.FlattenPreservesProductsWithPowers
  intro R hk
  refine ⟨fun a b t ht => coef_mmul_bdec_pow2 R a b ht, fun v b t hrows hcols ht => ?_,
    fun M P hrows hcols i hi t ht => ?_⟩
  · have hv : HasCoefs R v 1 R.k v.coef := hrows ▸ hcols ▸ hasCoefs_self R v
    have hinv := hasCoefs_bdinv hk ((Nat.one_mul R.k).symm ▸ hv)
    rw [coef_mmul_pow2_element hv b ht]
    exact (coeff_polyMul_of_coeffs (hinv.coef 0 Nat.one_pos 0 Nat.one_pos) (fun _ _ => rfl) ht).symm
  · have hM : HasCoefs R M M.rows (P.cols * R.k) M.coef := hcols ▸ hasCoefs_self R M
    have hP : HasCoefs R P 1 P.cols P.coef := hrows ▸ hasCoefs_self R P
    have hflat := hasCoefs_mmul_pow2 (hasCoefs_flat hk hM) hP
    rw [unbits_flatten] at hflat
    rw [hflat.coef i hi 0 Nat.one_pos t ht, (hasCoefs_mmul_pow2 hM hP).coef i hi 0 Nat.one_pos t ht]

end Sys2Proof.Machine
end

section
/-! PROOFS. The noise the decoder tolerates (42_gsw.md rule R173 (d)): with the low bits of μ taken off, the value of a
level is the bit it settles times q/2 plus the noise, and noise below q/4 leaves that on the bit's side of the band. -/

namespace Sys2Proof.Machine

open Sys2Proof.Spec

variable {R : RingCtx}

/-- A decoder whose every level tells the next bit of μ from the bits below it answers μ. -/
theorem decodeLevels_of_levelTest (reduce : Bool) (v : Nat → Nat) (μ : Nat) {j : Nat} (hj : j ≤ R.k)
    (h : ∀ i < j, (levelTest R reduce v i (μ % 2 ^ (R.k - 1 - i)) = true ↔ μ / 2 ^ (R.k - 1 - i) % 2 = 1)) :
    decodeLevels R reduce v j (μ % 2 ^ (R.k - j)) = μ % R.q := by
  induction j with
  | zero => rfl
  | succ j ih =>
    have hsize : R.k - j = R.k - 1 - j + 1 := by omega
    rw [decodeLevels_succ, ← ih (by omega) fun i hi => h i (by omega), show R.k - (j + 1) = R.k - 1 - j by omega, hsize,
      Nat.mod_pow_succ]
    refine congrArg (decodeLevels R reduce v j) ?_
    have hbit := h j (by omega)
    rcases Nat.mod_two_eq_zero_or_one (μ / 2 ^ (R.k - 1 - j)) with h0 | h1
    · rw [if_neg (by rw [hbit, h0]; decide), h0, Nat.mul_zero, Nat.add_zero]
    · rw [if_pos (hbit.2 h1), h1, Nat.mul_one]

/-- The same for the whole decoder. -/
theorem decodeLevels_eq_of_levelTest (reduce : Bool) (v : Nat → Nat) {μ : Nat} (hμ : μ < R.q)
    (h : ∀ i < R.k, (levelTest R reduce v i (μ % 2 ^ (R.k - 1 - i)) = true ↔ μ / 2 ^ (R.k - 1 - i) % 2 = 1)) :
    decodeLevels R reduce v R.k 0 = μ := by
  have hall := decodeLevels_of_levelTest reduce v μ le_rfl h
  rwa [Nat.sub_self, pow_zero, Nat.mod_one, Nat.mod_eq_of_lt hμ] at hall

/-- q/2, the weight of the bit a level settles. -/
theorem two_mul_half_q (hk : 1 ≤ R.k) : 2 * 2 ^ (R.k - 1) = R.q := by
  rw [RingCtx.q, ← Nat.pow_succ', Nat.succ_eq_add_one, Nat.sub_add_cancel hk]

/-- What is left of μ below q at level j: the known low bits, and at q/2 the bit that level settles. -/
theorem low_bits_shifted (μ : Nat) {j : Nat} (hj : j < R.k) :
    μ % 2 ^ (R.k - j) * 2 ^ j =
      μ % 2 ^ (R.k - 1 - j) * 2 ^ j + μ / 2 ^ (R.k - 1 - j) % 2 * 2 ^ (R.k - 1) := by
  obtain ⟨e, he⟩ : ∃ e, R.k = j + e + 1 := Nat.exists_eq_add_of_lt hj
  rw [show R.k - j = e + 1 by omega, show R.k - 1 - j = e by omega, show R.k - 1 = e + j by omega, Nat.mod_pow_succ,
    pow_add]
  ring

/-- The bits of μ that a shift takes past q do not count. -/
theorem residueOf_shifted_add (μ : Nat) (η : Int) {j : Nat} (hj : j < R.k) :
    residueOf R.q (2 ^ j * μ + η) = residueOf R.q ((μ % 2 ^ (R.k - j) * 2 ^ j : Nat) + η) := by
  have hq : R.q = 2 ^ j * 2 ^ (R.k - j) := by rw [RingCtx.q, ← pow_add, Nat.add_sub_cancel' hj.le]
  have hmod : 2 ^ j * μ % R.q = μ % 2 ^ (R.k - j) * 2 ^ j := by rw [hq, Nat.mul_mod_mul_left, Nat.mul_comm]
  refine modq_congr R ?_
  rw [← hmod, Int.natCast_mod, Int.emod_add_emod]
  push_cast
  rfl

/-- Taking the known low bits z off a reduced value is taking them off before the reduction. -/
theorem residueOf_residueOf_sub (R : RingCtx) (v z : Int) :
    residueOf R.q ((residueOf R.q v : Int) - z) = residueOf R.q (v - z) := by
  refine modq_congr R ?_
  rw [show ((residueOf R.q v : Nat) : Int) = v % (R.q : Int) from modq_cast R v, Int.emod_sub_emod]

/-- The residue of a value between -q and q. -/
theorem residueOf_cast_of_abs_lt {v : Int} (hlow : -(R.q : Int) ≤ v) (hhigh : v < R.q) :
    (residueOf R.q v : Int) = v + if 0 ≤ v then 0 else (R.q : Int) := by
  rw [show (residueOf R.q v : Int) = v % (R.q : Int) from modq_cast R v]
  split
  case isTrue h => rw [Int.emod_eq_of_lt h hhigh, add_zero]
  case isFalse h => rw [← Int.add_emod_right, Int.emod_eq_of_lt (by omega) (by omega)]

/-- Noise below q/4 does not move a bit at q/2 across a bound of the band, nor does the q a negative value gains. -/
theorem inBand_bit_add_noise {q h β : Nat} {η : Int} {p : Prop} [Decidable p] (hq : 2 * h = q) (hβ : β < 2)
    (hlow : -(q : Int) < 4 * η) (hhigh : 4 * η < q) (hp : ¬p → ((β * h : Nat) : Int) + η < 0) :
    InBand q ((β * h : Nat) + η + if p then 0 else (q : Int)) ↔ β = 1 := by
  rw [InBand]
  have hcases : β = 0 ∨ β = 1 := by omega
  split
  case isTrue _ => obtain rfl | rfl := hcases <;> omega
  case isFalse h =>
    have hneg := hp h
    obtain rfl | rfl := hcases <;> omega

/-- A level of the decoder tells the bit it settles from noise below q/4; without DEC_REDUCE, when the level's value
does not wrap past q. -/
theorem levelTest_iff_bit (reduce : Bool) {μ : Nat} {η : Nat → Int} {j : Nat} (hj : j < R.k)
    (hhigh : 4 * η j < R.q) (hlow : -(R.q : Int) < 4 * η j)
    (hwrap : reduce = false → ((μ % 2 ^ (R.k - j) * 2 ^ j : Nat) : Int) + η j < R.q) :
    levelTest R reduce (fun j => residueOf R.q (2 ^ j * μ + η j)) j (μ % 2 ^ (R.k - 1 - j)) = true ↔
      μ / 2 ^ (R.k - 1 - j) % 2 = 1 := by
  have hhalf : 2 * 2 ^ (R.k - 1) = R.q := two_mul_half_q (by omega)
  have hβ : μ / 2 ^ (R.k - 1 - j) % 2 < 2 := Nat.mod_lt _ (by decide)
  rw [levelTest_iff, residueOf_shifted_add μ (η j) hj]
  rw [low_bits_shifted μ hj] at hwrap ⊢
  generalize μ / 2 ^ (R.k - 1 - j) % 2 = β at hβ hwrap ⊢
  generalize μ % 2 ^ (R.k - 1 - j) * 2 ^ j = z at hwrap ⊢
  generalize 2 ^ (R.k - 1) = h at hhalf hwrap ⊢
  have hbit : β * h ≤ h := by simpa using Nat.mul_le_mul_right h (Nat.le_of_lt_succ hβ)
  have hsum : ((z + β * h : Nat) : Int) + η j - z = (β * h : Nat) + η j := by omega
  cases reduce with
  | true =>
    simp only [if_true]
    rw [residueOf_residueOf_sub, hsum, residueOf_cast_of_abs_lt (by omega) (by omega)]
    exact inBand_bit_add_noise hhalf hβ hlow hhigh (by omega)
  | false =>
    simp only [Bool.false_eq_true, if_false]
    rw [residueOf_cast_of_abs_lt (by omega) (hwrap rfl), add_sub_right_comm, hsum]
    exact inBand_bit_add_noise hhalf hβ hlow hhigh (by omega)

/-- Settles O59: every level tells its bit, with DEC_REDUCE and, where no level wraps, without. -/
theorem decoderToleratesNoiseBelowQuarter : Obligations.DecoderToleratesNoiseBelowQuarter := by
  unfold Obligations.DecoderToleratesNoiseBelowQuarter
  intro R μ η _ hμ hη
  refine ⟨decodeLevels_eq_of_levelTest true _ hμ fun j hj => ?_,
    fun hwrap => decodeLevels_eq_of_levelTest false _ hμ fun j hj => ?_⟩
  all_goals obtain ⟨hhigh, hlow⟩ := hη j hj
  · exact levelTest_iff_bit true hj hhigh hlow nofun
  · exact levelTest_iff_bit false hj hhigh hlow fun _ => hwrap j hj

end Sys2Proof.Machine
end

section
/-! PROOFS. Decryption undoes encryption (42_gsw.md rule R173 (a)): level j of an encryption under the matching key is
2^j·pt + R_j·e, because the products with the secret in the two columns cancel; then the decoder's tolerance applies. -/

namespace Sys2Proof.Machine

open Sys2Proof.Spec Polynomial

variable {R : RingCtx}

/-! ## The ring of elements (40_ring.md rule R111) -/

theorem coeff_poly (R : RingCtx) (a : Elem) {t : Nat} (ht : t < R.n) :
    (poly R a).coeff t = (coeff a t : ZMod R.q) := by
  simp [poly, Polynomial.coeff_X_pow, ht]

theorem degree_poly_lt (R : RingCtx) (a : Elem) : (poly R a).degree < R.n := by
  rw [Polynomial.degree_lt_iff_coeff_zero]
  intro m hm
  rw [poly, Polynomial.finsetSum_coeff]
  refine Finset.sum_eq_zero fun t ht => ?_
  have hlt := Finset.mem_range.1 ht
  rw [Polynomial.coeff_C_mul_X_pow, if_neg (by omega)]

/-- An element is fixed modulo q by its polynomial's class modulo x^n + 1. -/
theorem cast_coeff_eq_of_dvd (hk : 1 ≤ R.k) (hn : 1 ≤ R.n) {a b : Elem}
    (h : (X ^ R.n + 1 : (ZMod R.q)[X]) ∣ poly R a - poly R b) {t : Nat} (ht : t < R.n) :
    (coeff a t : ZMod R.q) = coeff b t := by
  have : Fact (1 < R.q) := ⟨Nat.one_lt_two_pow (by omega)⟩
  have hmonic : (X ^ R.n + 1 : (ZMod R.q)[X]).Monic := monic_X_pow_add_C 1 (by omega)
  have hdeg : (X ^ R.n + 1 : (ZMod R.q)[X]).degree = R.n := degree_X_pow_add_C hn 1
  have hlt : (poly R a - poly R b).degree < R.n :=
    (degree_sub_le _ _).trans_lt (max_lt (degree_poly_lt R a) (degree_poly_lt R b))
  have hzero : poly R a - poly R b = 0 := by
    by_contra hne
    exact hmonic.not_dvd_of_degree_lt hne (hdeg ▸ hlt) h
  rw [← coeff_poly R a ht, ← coeff_poly R b ht, sub_eq_zero.1 hzero]

/-- The multiplier is associative: both orders differ from the product of the three polynomials by
multiples of x^n + 1. -/
theorem cast_coeff_polyMul_assoc (hk : 1 ≤ R.k) (hn : 1 ≤ R.n) (a b c : Elem) {t : Nat} (ht : t < R.n) :
    (coeff (polyMul R (polyMul R a b) c) t : ZMod R.q) = coeff (polyMul R a (polyMul R b c)) t := by
  refine cast_coeff_eq_of_dvd hk hn ?_ ht
  have hab_c := dvd_poly_mul_sub_poly_polyMul R (polyMul R a b) c
  have hab := dvd_poly_mul_sub_poly_polyMul R a b
  have ha_bc := dvd_poly_mul_sub_poly_polyMul R a (polyMul R b c)
  have hbc := dvd_poly_mul_sub_poly_polyMul R b c
  have hleft := (hab.mul_right (poly R c)).add hab_c
  have hright := (hbc.mul_left (poly R a)).add ha_bc
  convert hright.sub hleft using 1
  ring

theorem cast_coeff_polyMul (R : RingCtx) (a b : Elem) {t : Nat} (ht : t < R.n) :
    (coeff (polyMul R a b) t : ZMod R.q) = negacyclicMod R (fun i => coeff a i) (fun j => coeff b j) t := by
  rw [coeff_polyMul_eq_negacyclic R a b ht, ← cast_negacyclic]
  exact modq_cast_zmod R _

theorem cast_coeff_polyAdd (R : RingCtx) (a b : Elem) {t : Nat} (ht : t < R.n) :
    (coeff (polyAdd R a b) t : ZMod R.q) = coeff a t + coeff b t := by
  rw [coeff_polyAdd R a b ht, modq_cast_zmod]
  push_cast
  rfl

theorem cast_coeff_polyNeg (R : RingCtx) (a : Elem) {t : Nat} (ht : t < R.n) :
    (coeff (polyNeg R a) t : ZMod R.q) = -coeff a t := by
  rw [coeff_polyNeg R a ht, modq_cast_zmod]
  push_cast
  rfl

theorem cast_coeff_constElem_one (R : RingCtx) {t : Nat} (ht : t < R.n) :
    (coeff (constElem R 1) t : ZMod R.q) = if t = 0 then 1 else 0 := by
  rw [constElem, coeff_elemOf _ ht]
  split
  · rw [modq_cast_zmod, Int.cast_one]
  · exact Nat.cast_zero

theorem negacyclicMod_congr {a a' b b' : Nat → ZMod R.q} (ha : ∀ i < R.n, a i = a' i) (hb : ∀ j < R.n, b j = b' j)
    (t : Nat) : negacyclicMod R a b t = negacyclicMod R a' b' t := by
  refine Finset.sum_congr rfl fun i hi => Finset.sum_congr rfl fun j hj => ?_
  rw [ha i (Finset.mem_range.1 hi), hb j (Finset.mem_range.1 hj)]

theorem negacyclicMod_add_right (a b c : Nat → ZMod R.q) (t : Nat) :
    negacyclicMod R a (fun j => b j + c j) t = negacyclicMod R a b t + negacyclicMod R a c t := by
  simp only [negacyclicMod, mul_add, Finset.sum_add_distrib]

theorem negacyclicMod_neg_right (a b : Nat → ZMod R.q) (t : Nat) :
    negacyclicMod R a (fun j => -b j) t = -negacyclicMod R a b t := by
  simp only [negacyclicMod, mul_neg, Finset.sum_neg_distrib]

/-- The constant 1 is the unit of the product. -/
theorem negacyclicMod_one (a : Nat → ZMod R.q) {t : Nat} (ht : t < R.n) :
    negacyclicMod R a (fun j => if j = 0 then 1 else 0) t = a t := by
  have hinner : ∀ i ∈ Finset.range R.n, ∑ j ∈ Finset.range R.n,
      (wrappedTerm R.n (i + j) t 1 : ZMod R.q) * (a i * if j = 0 then 1 else 0) = if i = t then a i else 0 := by
    intro i hi
    have hlt := Finset.mem_range.1 hi
    rw [Finset.sum_eq_single_of_mem 0 (Finset.mem_range.2 (by omega)) fun j _ hne => by rw [if_neg hne]; ring,
      if_pos rfl, mul_one, Nat.add_zero, wrappedTerm, if_neg (show i ≠ t + R.n by omega)]
    split <;> simp
  rw [negacyclicMod, Finset.sum_congr rfl hinner, Finset.sum_ite_eq', if_pos (Finset.mem_range.2 ht)]

/-! ## bitDecompInv of an encryption's sum (42_gsw.md rule R165) -/

/-- bitDecompInv is linear modulo q. -/
theorem unbits_plus (R : RingCtx) (A B : Coefs) :
    unbits R.q R.k (plus R.q A B) = plus R.q (unbits R.q R.k A) (unbits R.q R.k B) := by
  funext i j t
  rw [plus, unbits, unbits, unbits, ← Nat.add_mod, ← Finset.sum_add_distrib, Finset.sum_nat_mod]
  conv_rhs => rw [Finset.sum_nat_mod]
  refine congrArg (· % R.q) (Finset.sum_congr rfl fun l _ => ?_)
  rw [plus, Nat.mul_mod_mod, Nat.mul_add]

/-- The k top rows of g·I weigh up to 2^i·g in the first column group and to 0 in the second. -/
theorem unbits_diagonal (g : Nat → Nat) {i : Nat} (hi : i < R.k) (j t : Nat) :
    unbits R.q R.k (diagonal g) i j t = (if j = 0 then 2 ^ i * g t else 0) % R.q := by
  rw [unbits]
  congr 1
  split
  case isTrue h =>
    subst h
    rw [Finset.sum_eq_single_of_mem i (Finset.mem_range.2 hi)]
    · rw [diagonal, if_pos (by omega)]
    · intro l _ hne
      rw [diagonal, if_neg (by omega), Nat.mul_zero]
  case isFalse h =>
    refine Finset.sum_eq_zero fun l _ => ?_
    have : R.k ≤ j * R.k := Nat.le_mul_of_pos_left _ (by omega)
    rw [diagonal, if_neg (by omega), Nat.mul_zero]

/-- The secret's product with the second column takes the key's product with the secret out of the first: what is left
of a row R_j of the drawn matrix times the key is R_j·e (rule R173 (a)). -/
theorem cast_drawn_row_times_key (hk : 1 ≤ R.k) (hn : 1 ≤ R.n) (t b1 e d : Elem) {x : Nat} (hx : x < R.n) :
    (coeff (polyMul R d (polyAdd R (polyMul R b1 t) e)) x : ZMod R.q) - coeff (polyMul R (polyMul R d b1) t) x =
      coeff (polyMul R d e) x := by
  have hsum : (coeff (polyMul R d (polyAdd R (polyMul R b1 t) e)) x : ZMod R.q) =
      coeff (polyMul R d (polyMul R b1 t)) x + coeff (polyMul R d e) x := by
    simp only [cast_coeff_polyMul R d _ hx]
    rw [← negacyclicMod_add_right]
    exact negacyclicMod_congr (fun _ _ => rfl) (fun j hj => cast_coeff_polyAdd R _ e hj) x
  rw [hsum, cast_coeff_polyMul_assoc hk hn d b1 t hx, add_sub_cancel_left]

/-! ## The levels of a decryption (42_gsw.md rules R162 to R168) -/

/-- The two elements of the row [[1, -t]] that the SecretKey holds the powers of (rule R162). -/
def secretRow (R : RingCtx) (t : Elem) (c : Nat) : Elem := if c = 0 then constElem R 1 else polyNeg R t

theorem hasCoefs_secretKey_powers (R : RingCtx) (t : Elem) :
    HasCoefs R (secretKey R t) (2 * R.k) 1 fun l j x => powers R.q R.k (fun _ c y => coeff (secretRow R t c) y) j l x :=
  hasCoefs_transpose (hasCoefs_pow2 (hasCoefs_matOf fun _ _ _ _ _ _ => rfl))

theorem negacyclicMod_secretRow_zero (a : Nat → ZMod R.q) (t : Elem) {x : Nat} (hx : x < R.n) :
    negacyclicMod R a (fun i => coeff (secretRow R t 0) i) x = a x := by
  rw [← negacyclicMod_one a hx]
  exact negacyclicMod_congr (fun _ _ => rfl) (fun _ hj => cast_coeff_constElem_one R hj) x

theorem negacyclicMod_secretRow_one (a : Nat → ZMod R.q) (t : Elem) (x : Nat) :
    negacyclicMod R a (fun i => coeff (secretRow R t 1) i) x = -negacyclicMod R a (fun i => coeff t i) x := by
  rw [← negacyclicMod_neg_right]
  exact negacyclicMod_congr (fun _ _ => rfl) (fun _ hj => cast_coeff_polyNeg R t hj) x

/-- The two elements of the PublicKey row (rule R164). -/
def publicRow (R : RingCtx) (t b1 e : Elem) (c : Nat) : Elem := if c = 0 then polyAdd R (polyMul R b1 t) e else b1

/-- The coefficients of the drawn column times the PublicKey row. -/
def drawnKeyCoefs (R : RingCtx) (t b1 e : Elem) (draw : Mat) : Coefs :=
  fun i c x => coeff (polyMul R (draw.get i 0) (publicRow R t b1 e c)) x

theorem hasCoefs_draw_mul_publicKey (t b1 e : Elem) {draw : Mat} {m : Nat} (hrows : draw.rows = m)
    (hcols : draw.cols = 1) :
    HasCoefs R (mmul R draw (publicKey R t b1 e)) m 2 (drawnKeyCoefs R t b1 e draw) := by
  have hdraw : HasCoefs R draw m 1 draw.coef := ⟨hrows, hcols, fun _ _ _ _ _ _ => rfl⟩
  have hkey : HasCoefs R (publicKey R t b1 e) 1 2 fun _ c x => coeff (publicRow R t b1 e c) x :=
    hasCoefs_matOf fun _ _ _ _ _ _ => rfl
  refine (hasCoefs_mmul hdraw hkey).congr fun i _ c _ x hx => ?_
  rw [product_one, drawnKeyCoefs, coeff_polyMul_eq_negacyclic R _ _ hx]
  rfl

/-- The coefficients of an encryption, from the plaintext's and those of the drawn matrix times the key (rule R165). -/
def encryptionCoefs (R : RingCtx) (pt : Nat → Nat) (D : Coefs) : Coefs :=
  flatten R.q R.k (plus R.q (diagonal pt) (bits R.k D))

theorem hasCoefs_encrypt (hk : 1 ≤ R.k) (pt : Elem) {draw key : Mat} {D : Coefs}
    (hD : HasCoefs R (mmul R draw key) (2 * R.k) 2 D) :
    HasCoefs R (encrypt R pt draw key) (2 * R.k) (2 * R.k) (encryptionCoefs R (coeff pt) D) :=
  hasCoefs_flat hk (hasCoefs_madd (hasCoefs_ident fun _ _ => rfl) (hasCoefs_bdec hD))

/-- The bitDecompInv of the k top rows of an encryption: the drawn rows times the key, plus 2^j·pt in column 0. -/
theorem cast_unbits_encryptionCoefs (pt : Nat → Nat) (D : Coefs) {j : Nat} (hj : j < R.k) (c x : Nat) :
    (unbits R.q R.k (encryptionCoefs R pt D) j c x : ZMod R.q) =
      (if c = 0 then 2 ^ j * (pt x : ZMod R.q) else 0) + D j c x := by
  rw [encryptionCoefs, unbits_flatten, unbits_plus, unbits_bits, plus, unbits_diagonal pt hj]
  push_cast [ZMod.natCast_mod]
  rfl

/-- Level j of the decryption of an encryption, modulo q, is 2^j·pt and the noise R_j·e (rule R173 (a)). -/
theorem cast_sum_levels (hk : 1 ≤ R.k) (hn : 1 ≤ R.n) (t b1 e pt : Elem) (draw : Mat) {j x : Nat} (hj : j < R.k)
    (hx : x < R.n) :
    ((∑ c ∈ Finset.range 2, negacyclic R.n
        (unbits R.q R.k (encryptionCoefs R (coeff pt) (drawnKeyCoefs R t b1 e draw)) j c)
        (coeff (secretRow R t c)) x : Int) : ZMod R.q) =
      2 ^ j * coeff pt x + coeff (polyMul R (draw.get j 0) e) x := by
  have hfirst := cast_unbits_encryptionCoefs (coeff pt) (drawnKeyCoefs R t b1 e draw) hj 0 x
  have hsecond : negacyclicMod R
      (fun i => unbits R.q R.k (encryptionCoefs R (coeff pt) (drawnKeyCoefs R t b1 e draw)) j 1 i)
      (fun i => coeff t i) x = coeff (polyMul R (polyMul R (draw.get j 0) b1) t) x := by
    simp only [cast_coeff_polyMul R _ t hx, cast_unbits_encryptionCoefs _ _ hj, one_ne_zero, if_false, zero_add]
    rfl
  rw [Finset.sum_range_succ, Finset.sum_range_one, Int.cast_add, cast_negacyclic, cast_negacyclic,
    negacyclicMod_secretRow_zero _ t hx, negacyclicMod_secretRow_one, hfirst, hsecond, if_pos rfl,
    ← cast_drawn_row_times_key hk hn t b1 e (draw.get j 0) hx, ← sub_eq_add_neg, add_sub_assoc]
  rfl

/-- A residue read with its sign, in [-q/2, q/2). -/
def signedResidue (R : RingCtx) (v : Nat) : Int := if 2 * v < R.q then v else (v : Int) - R.q

theorem cast_signedResidue (R : RingCtx) (v : Nat) : (signedResidue R v : ZMod R.q) = v := by
  rw [signedResidue]
  split <;> simp

theorem abs_signedResidue_lt {v : Nat} (hlt : v < R.q) (hv : 4 * v < R.q ∨ 3 * R.q < 4 * v) :
    4 * signedResidue R v < R.q ∧ -(R.q : Int) < 4 * signedResidue R v := by
  rw [signedResidue]
  split <;> omega

/-- Settles O60: every level is 2^j·pt plus noise below q/4, which the decoder tolerates. -/
theorem decryptionUndoesEncryption : Obligations.DecryptionUndoesEncryption := by
  unfold Obligations.DecryptionUndoesEncryption
  intro R t b1 e pt draw hk hn hrows hcols hpt hnoise x hx
  have hcipher := hasCoefs_encrypt hk pt (hasCoefs_draw_mul_publicKey t b1 e hrows hcols)
  have hdec := hasCoefs_decrypt true hcipher (hasCoefs_secretKey_powers R t)
  have hlt : ∀ j, coeff (polyMul R (draw.get j 0) e) x < R.q := fun j => by
    rw [coeff_polyMul R _ e hx]
    exact modq_lt R _
  obtain ⟨hreduce, -⟩ := decoderToleratesNoiseBelowQuarter R (coeff pt x)
    (fun j => signedResidue R (coeff (polyMul R (draw.get j 0) e) x)) hk (hpt x hx)
    fun j hj => abs_signedResidue_lt (hlt j) (hnoise j hj x hx)
  rw [hdec.coef 0 Nat.one_pos 0 Nat.one_pos x hx, product_powers]
  refine (decodeLevels_congr true (fun j hj => residueOf_congr_zmod ?_) 0).trans hreduce
  rw [cast_sum_levels hk hn t b1 e pt draw hj hx]
  push_cast
  rw [cast_signedResidue]

end Sys2Proof.Machine
end

section
/-! PROOFS. NOP (43_control.md rule R190): it makes none of the checks of the other commands (60_exceptions.md rule R205
step 3), so its one equation has no hypothesis. -/

namespace Sys2Proof.Machine

/-- NOP completes, configured or not. -/
theorem exec_nop (s : State) : exec .nop s = .next (complete s) := rfl

/-- Settles O7: completing a command writes DONE and PEND alone. -/
theorem nopCompletes : Obligations.NopCompletes := by
  unfold Obligations.NopCompletes
  intro s
  rw [exec_nop, complete]

end Sys2Proof.Machine
end

section
/-! PROOFS. Exceptions (60_exceptions.md): an error raised while ERR = 0 overwrites ERR, CAUSE and PEND and nothing else
(rules R201, R212), so a turn of the engine that sets ERR, and a command refused after a reset, are each one such update;
a turn with nothing pending (rule R218); and BAD_CONFIG, the one error that a register write records (rule R206). -/

namespace Sys2Proof.Machine

open Sys2Proof.Spec

/-! ## Raising an error while ERR = 0 (rules R201, R212) -/

theorem raiseError_of_no_error {s : State} (herr : s.err = false) (c : Cause) (o : Opcode) (n : BitVec 3) :
    raiseError c o n s = { s with err := true, cause := causeWord c.code o n, pend := none } := by
  simp [raiseError, recordError, herr]

/-- No error has the code 0, which CAUSE holds where there is none (rule R202). -/
theorem Cause.code_ne_zero (c : Cause) : c.code ≠ 0 := by cases c <;> decide

/-- CAUSE with OPND = 0: every error but BAD_DESCRIPTOR (10_state.md rule R29). -/
theorem causeWord_zero_operand (code : BitVec 8) (o : Opcode) : causeWord code o 0 = 0x00#16 ++ o ++ code := rfl

/-- A command that sets ERR has raised an error: completing keeps ERR. -/
theorem Answers.eq_raiseError {i : Instr} {s t : State} (h : Answers i s t) (hs : s.err = false) (ht : t.err = true) :
    ∃ c n, t = raiseError c i.opcode n s := by
  cases h with
  | raises => exact ⟨_, _, rfl⟩
  | nop | stores | checks => exact absurd (hs.symm.trans ht) (by decide)

/-- A turn of the engine that sets ERR has raised an error, from a command or from a word that spells none. -/
theorem engineTurn_eq_raiseError {s t : State} (h : engineTurn s = .next t) (hs : s.err = false) (ht : t.err = true) :
    ∃ c o n, t = raiseError c o n s := by
  by_cases hp : s.pend = none
  · rw [engineTurn_idle hp] at h
    cases h
    exact absurd (hs.symm.trans ht) (by decide)
  · rcases engineTurn_pending_cases hp with ⟨u, he, hu⟩ | he <;> rw [he] at h <;> cases h
    cases hu with
    | raises o => exact ⟨_, o, _, rfl⟩
    | @runs i _ hans =>
      obtain ⟨c, n, hc⟩ := hans.eq_raiseError hs ht
      exact ⟨c, i.opcode, n, hc⟩

/-- Settles O28: the turn is one raised error, whose update names the fields it writes and whose code is not 0. -/
theorem errorsArePrecise : Obligations.ErrorsArePrecise := by
  unfold Obligations.ErrorsArePrecise
  intro s t hs h ht
  obtain ⟨c, o, n, rfl⟩ := engineTurn_eq_raiseError h hs ht
  rw [raiseError_of_no_error hs]
  obtain ⟨hcode, -⟩ := fields_causeWord c.code o n
  exact ⟨rfl, hcode.trans_ne c.code_ne_zero⟩

/-! ## Commands after a reset (rule R205 step 3, 70_reset_and_hazards.md rule R232) -/

/-- Either reset resets every register; they differ in what they leave in PM (70_reset_and_hazards.md rules R231, R233). -/
theorem eq_resetRegisters_of_reset {s t : State} {v : Word}
    (h : after .powerOn s = .next t ∨ (v.getLsbD 0 = true ∧ after (hostWrite s 0x020 v) s = .next t)) :
    ∃ u, t = resetRegisters u := by
  rcases h with h | ⟨hv, h⟩
  · cases h
    exact ⟨{ s with pm := ⟨[]⟩ }, rfl⟩
  · rw [after_hostWrite v (r := .ctrl) rfl, writeReg, writeCtrl, if_pos hv] at h
    cases h
    exact ⟨abandonPending s, rfl⟩

/-- CFG = 0 is not valid, whatever the implementation's limits: LOGQ is 0 (10_state.md rule R25). -/
theorem cfgOk_resetRegisters (s : State) : (resetRegisters s).cfgOk = false := by
  simp [State.cfgOk, cfgValid, cfgLogq]

/-- Settles O52: in the reset registers CFG is not valid and ERR is 0, so every command but NOP fails the first check. -/
theorem afterResetOnlyNopCompletes : Obligations.AfterResetOnlyNopCompletes := by
  unfold Obligations.AfterResetOnlyNopCompletes
  intro s t v i h
  obtain ⟨u, rfl⟩ := eq_resetRegisters_of_reset h
  split
  case isTrue hi => rw [hi, exec_nop, complete]
  case isFalse hi =>
    rw [exec_not_configured hi (cfgOk_resetRegisters u), raiseError_of_no_error (resetRegisters_err u),
      causeWord_zero_operand]
    rfl

/-! ## A turn with nothing pending (rule R218) -/

/-- Settles O6: neither the idle turn nor a step with no event left moves anything. -/
theorem idleEngineKeepsState : Obligations.IdleEngineKeepsState := by
  unfold Obligations.IdleEngineKeepsState
  exact fun s hp => ⟨engineTurn_idle hp, step_nil⟩

/-! ## BAD_CONFIG (rule R206) -/

/-- Settles O36: a CFG write is dropped while BUSY, else the stored value is checked and an invalid one recorded. -/
theorem cfgWriteStoresAndChecks : Obligations.CfgWriteStoresAndChecks := by
  unfold Obligations.CfgWriteStoresAndChecks
  intro s v
  rw [after_hostWrite v (r := .cfg) rfl, writeReg, writeCfg, ite_busy]
  simp only [cfgOk_iff]
  rfl

end Sys2Proof.Machine
end

section
/-! PROOFS. The power-on reset (70_reset_and_hazards.md rule R231): what a descriptor, IRQ and a PM word read after it, and
that it enters a run cleanly (rule R246). -/

namespace Sys2Proof.Machine

theorem after_powerOn (s : State) : after .powerOn s = .next (powerOnReset s) := rfl

@[simp] theorem powerOnReset_desc (s : State) (i : Idx) : (powerOnReset s).desc i = 0 := by simp [State.desc]

/-- IE = 0 masks IRQ (10_state.md rule R37). -/
@[simp] theorem powerOnReset_irq (s : State) : (powerOnReset s).irq = false := by simp [State.irq]

/-- In the empty memory, which is PM after the pulse, every word is unwritten (rule R41). -/
@[simp] theorem Memory.read_empty (a : Nat) : Memory.read ⟨[]⟩ a = none := rfl

/-- Nothing is pending and no flag is set, from whatever state the pulse came. -/
theorem powerOnReset_cleanEntry (s : State) : CleanEntry (powerOnReset s) :=
  ⟨powerOnReset_pend s, powerOnReset_err s, powerOnReset_haz s, powerOnReset_aerr s⟩

/-- Settles O50: the pulse answers `powerOnReset s`, whose registers and PM the lemmas name one by one, and the reset state
is what the pulse makes of itself. -/
theorem powerOnResetState : Obligations.PowerOnResetState := by
  unfold Obligations.PowerOnResetState
  refine ⟨fun s => ⟨powerOnReset s, after_powerOn s, ?_⟩, ?_, ?_⟩
  case refine_1 => simp
  case refine_2 => rw [after_powerOn, powerOnReset_reset]
  case refine_3 =>
    rw [← powerOnReset_reset]
    exact powerOnReset_cleanEntry State.reset

end Sys2Proof.Machine
end
